-- ==== Sys2Proof/Word.lean ====
section
/-! DEFINITION. The word types of the BLAKE2F block (00_scope.md R9, R7): 64-bit datapath words and 8-bit bytes,
both unsigned, and the four words of one column, which the half-mixes take and give (42_mixer.md R144). -/

namespace Sys2Proof

/-- A datapath word, u64 (00_scope.md R7, WORD_BITS = 64). -/
abbrev Word := BitVec 64

/-- A byte, u8 (00_scope.md R9). -/
abbrev Byte := BitVec 8

/-- One column of the working vector: lane `j` of rows 1 to 4, in that order (42_mixer.md R144). -/
structure Column where
  a : Word
  b : Word
  c : Word
  d : Word
  deriving DecidableEq, Repr

end Sys2Proof
end

