-- ==== Sys2Proof/Config.lean ====
section
/-! DEFINITION. What is fixed for the block: the parameters of 00_scope.md R7. The values R7 leaves OPEN have no body
here. STRICT_FINAL_FLAG is a field of the state, because RESET and its static nature are rules about it; only its
default stands here. -/

namespace Sys2Proof.Config

/-- PAYLOAD_LEN: the only input length accepted (00_scope.md R7). -/
abbrev payloadLen : Nat := 213

/-- OUT_LEN: the output length (00_scope.md R7). -/
abbrev outLen : Nat := 64

/-- The default of STRICT_FINAL_FLAG (00_scope.md R7, 92_eei_decisions.md D4). -/
def strictFinalFlagDefault : Bool := false

/-- LATENCY(ROUNDS), OPEN: how long a realization takes from SUBMIT to DONE. It depends on ROUNDS alone, as its type
says, and no definition of the model reads it: "A model states no time, only the order of events"
(70_reset_and_hazards.md R251; log entry 14). -/
opaque latency : BitVec 32 → Nat

end Sys2Proof.Config
end

