-- ==== Sys2Proof/Syntax.lean ====
section
/-! DEFINITION. The instructions of the block: one constructor per row of spec/opcode_table.json, with the operands the
spec gives each. -/

namespace Sys2Proof

/-- The fields of a PAYLOAD213 (30_encoding.md R71). `f` is the raw final_flag byte; every value of every field is
legal outside strict mode (R83). -/
structure Payload where
  rounds : BitVec 32
  h : Vector Word 8
  m : Vector Word 16
  t : Vector Word 2
  f : Byte
  deriving DecidableEq, Repr

/-- What a requester or the environment can do to the block, and all it can do (40_transaction.md R112). -/
inductive Handshake where
  /-- SUBMIT of a byte string of any length (40_transaction.md R101). -/
  | submit (bytes : List Byte)
  /-- CONSUME (40_transaction.md R108). -/
  | consume
  /-- RESET (70_reset_and_hazards.md R240). -/
  | reset
  deriving DecidableEq, Repr

/-- The instructions: the rows of spec/opcode_table.json, in the table's order. -/
inductive Instr where
  /-- BLAKE2F: the one legal command, end to end (40_transaction.md R100, 30_encoding.md R80). -/
  | blake2f (p : Payload)
  /-- BLAKE2F.strict: the same command as strict mode admits it, final byte 0 or 1 (30_encoding.md R80). -/
  | blake2fStrict (p : Payload)
  /-- INVALID_INPUT_LENGTH: a RAW request of a length other than 213 (60_exceptions.md R202). -/
  | invalidInputLength (bytes : List Byte)
  /-- INVALID_FINAL_FLAG: in strict mode, a 213-byte request whose final byte is above 1 (60_exceptions.md R203). -/
  | invalidFinalFlag (p : Payload)
  /-- PHASE.CHK, code 0x0 (41_decoder.md R120 to R122). -/
  | phaseChk
  /-- PHASE.DEC, code 0x1 (41_decoder.md R123 to R128). -/
  | phaseDec
  /-- PHASE.INIT, code 0x2 (42_mixer.md R148). -/
  | phaseInit
  /-- PHASE.G1C, code 0x3 (42_mixer.md R151). -/
  | phaseG1c
  /-- PHASE.G2C, code 0x4 (42_mixer.md R153). -/
  | phaseG2c
  /-- PHASE.DIAG, code 0x5 (42_mixer.md R154). -/
  | phaseDiag
  /-- PHASE.G1D, code 0x6 (42_mixer.md R155). -/
  | phaseG1d
  /-- PHASE.G2D, code 0x7 (42_mixer.md R156). -/
  | phaseG2d
  /-- PHASE.UNDIAG, code 0x8 (42_mixer.md R157). -/
  | phaseUndiag
  /-- PHASE.FIN, code 0x9 (43_serializer.md R180). -/
  | phaseFin
  /-- PHASE.SER, code 0xA (43_serializer.md R181, R182). -/
  | phaseSer
  /-- PHASE.reserved, codes 0xB to 0xF (30_encoding.md R84). -/
  | phaseReserved (code : BitVec 4)
  /-- SUBMIT (40_transaction.md R101). -/
  | submit (bytes : List Byte)
  /-- CONSUME (40_transaction.md R108). -/
  | consume
  /-- RESET (70_reset_and_hazards.md R240). -/
  | reset
  /-- blake2b.block, a pseudo-instruction (30_encoding.md R87). -/
  | blake2bBlock (h : Vector Word 8) (m : Vector Word 16) (t : Vector Word 2) (last : Bool)
  /-- blake2f.zero, a pseudo-instruction (30_encoding.md R87). -/
  | blake2fZero (rounds : BitVec 32)
  deriving DecidableEq, Repr

end Sys2Proof
end

