-- ==== Sys2Proof/WellFormed.lean ====
section
/-! DEFINITION. Which instruction terms stand for something the spec encodes: the match column of
spec/opcode_table.json. Operand widths are in the types; these checks are what the types do not say. -/

namespace Sys2Proof

/-- The final bytes strict mode admits: the row BLAKE2F.strict's mask 0xFE, match 0x00 (30_encoding.md R76). -/
def legalStrictFlag (f : Byte) : Bool := f &&& 0xFE#8 == 0x00#8

/-- The match column of the opcode table, per row. -/
def Instr.wellFormed : Instr → Bool
  | .blake2f _ => true
  | .blake2fStrict p => legalStrictFlag p.f
  | .invalidInputLength bytes => bytes.length != Config.payloadLen
  | .invalidFinalFlag p => !legalStrictFlag p.f
  | .phaseChk => true
  | .phaseDec => true
  | .phaseInit => true
  | .phaseG1c => true
  | .phaseG2c => true
  | .phaseDiag => true
  | .phaseG1d => true
  | .phaseG2d => true
  | .phaseUndiag => true
  | .phaseFin => true
  | .phaseSer => true
  | .phaseReserved code => 0xB#4 ≤ code
  | .submit _ => true
  | .consume => true
  | .reset => true
  | .blake2bBlock _ _ _ _ => true
  | .blake2fZero _ => true

end Sys2Proof
end

