-- ==== Sys2Proof/Decode.lean ====
section
/-! DEFINITION. Decoding and encoding: bytes to words and back (00_scope.md R11), the PAYLOAD213 fields
(30_encoding.md R71), the phase codes (R79) and the opcode map of requests (R80, R81). The decoder is total; the
encoder after it is written from the same tables. -/

namespace Sys2Proof

/-! ### Bytes and words (00_scope.md R11) -/

/-- The number a byte string gives, least significant byte first. -/
def leNat : List Byte → Nat
  | [] => 0
  | b :: bs => b.toNat + 256 * leNat bs

/-- The number a byte string gives, most significant byte first. -/
def beNat (bs : List Byte) : Nat := leNat bs.reverse

/-- `B[o : o + n)` (00_scope.md R8). -/
def slice (B : List Byte) (o n : Nat) : List Byte := (B.drop o).take n

/-- `le64(B, o)` (00_scope.md R11). -/
def le64 (B : List Byte) (o : Nat) : Word := BitVec.ofNat 64 (leNat (slice B o 8))

/-- `be32(B, o)` (00_scope.md R11). -/
def be32 (B : List Byte) (o : Nat) : BitVec 32 := BitVec.ofNat 32 (beNat (slice B o 4))

/-- `le64bytes(w)`: byte `k` is `w[8k+7:8k]` (00_scope.md R11). -/
def le64bytes (w : Word) : List Byte := (List.range 8).map fun k => w.extractLsb' (8 * k) 8

/-- The four bytes of a u32, most significant first (30_encoding.md R86, `be32bytes`). -/
def be32bytes (w : BitVec 32) : List Byte := (List.range 4).map fun k => w.extractLsb' (8 * (3 - k)) 8

/-- The bytes of a sequence of words, each little-endian, in order (30_encoding.md R78, R86). -/
def wordsBytes (ws : List Word) : List Byte := ws.flatMap le64bytes

/-! ### PAYLOAD213 (30_encoding.md R71 to R76) -/

/-- The fields of a 213-byte payload, at the offsets of 30_encoding.md R71. A byte string of any other length has no
fields: it is never truncated, padded or given a value (30_encoding.md R85, 41_decoder.md R130). -/
def decodePayload (B : List Byte) : Option Payload :=
  if B.length = Config.payloadLen then
    some
      { rounds := be32 B 0
        h := Vector.ofFn fun k => le64 B (4 + 8 * k)
        m := Vector.ofFn fun k => le64 B (68 + 8 * k)
        t := Vector.ofFn fun k => le64 B (196 + 8 * k)
        f := B.getD 212 0 }
  else none

/-- The 213 bytes of a payload (30_encoding.md R86). -/
def encodePayload (p : Payload) : List Byte :=
  be32bytes p.rounds ++ (wordsBytes p.h.toList ++ (wordsBytes p.m.toList ++ (wordsBytes p.t.toList ++ [p.f])))

/-! ### What the block is given -/

/-- The encoded objects of the block: a phase code (format PHASE4), a request (formats RAW and PAYLOAD213), or a
handshake event, which has no bits (30_encoding.md R70; opcode table, format "handshake"). -/
inductive Wire where
  | phase (code : BitVec 4)
  | request (bytes : List Byte)
  | handshake (c : Handshake)
  deriving DecidableEq, Repr

/-- The phase a 4-bit code names (30_encoding.md R79); 0xB to 0xF are reserved (R84). -/
def decodePhase (code : BitVec 4) : Instr :=
  match code.toNat with
  | 0x0 => .phaseChk
  | 0x1 => .phaseDec
  | 0x2 => .phaseInit
  | 0x3 => .phaseG1c
  | 0x4 => .phaseG2c
  | 0x5 => .phaseDiag
  | 0x6 => .phaseG1d
  | 0x7 => .phaseG2d
  | 0x8 => .phaseUndiag
  | 0x9 => .phaseFin
  | 0xA => .phaseSer
  | _ => .phaseReserved code

/-- Which row of the opcode map a request is, for a value of STRICT_FINAL_FLAG: its length first, then, in strict mode,
its final byte (30_encoding.md R80, R81, R85). -/
def decodeRequest (strict : Bool) (B : List Byte) : Instr :=
  match decodePayload B with
  | none => .invalidInputLength B
  | some p =>
    if strict then
      if legalStrictFlag p.f then .blake2fStrict p else .invalidFinalFlag p
    else .blake2f p

/-- The requester's command a handshake event is. -/
def decodeHandshake : Handshake → Instr
  | .submit bytes => .submit bytes
  | .consume => .consume
  | .reset => .reset

/-- The decoder, total. -/
def decodeWire (strict : Bool) : Wire → Instr
  | .phase code => decodePhase code
  | .request bytes => decodeRequest strict bytes
  | .handshake c => decodeHandshake c

/-! ### The encoder -/

/-- The payload blake2b.block expands to (30_encoding.md R87). -/
def blockPayload (h : Vector Word 8) (m : Vector Word 16) (t : Vector Word 2) (last : Bool) : Payload :=
  { rounds := 12, h := h, m := m, t := t, f := if last then 1 else 0 }

/-- The payload blake2f.zero expands to (30_encoding.md R87). -/
def zeroPayload (rounds : BitVec 32) : Payload :=
  { rounds := rounds, h := Vector.replicate 8 0, m := Vector.replicate 16 0, t := Vector.replicate 2 0, f := 0 }

/-- What an instruction is on the wire, or as a phase code (30_encoding.md R71, R79, R87). -/
def encode : Instr → Wire
  | .blake2f p => .request (encodePayload p)
  | .blake2fStrict p => .request (encodePayload p)
  | .invalidInputLength bytes => .request bytes
  | .invalidFinalFlag p => .request (encodePayload p)
  | .phaseChk => .phase 0x0
  | .phaseDec => .phase 0x1
  | .phaseInit => .phase 0x2
  | .phaseG1c => .phase 0x3
  | .phaseG2c => .phase 0x4
  | .phaseDiag => .phase 0x5
  | .phaseG1d => .phase 0x6
  | .phaseG2d => .phase 0x7
  | .phaseUndiag => .phase 0x8
  | .phaseFin => .phase 0x9
  | .phaseSer => .phase 0xA
  | .phaseReserved code => .phase code
  | .submit bytes => .handshake (.submit bytes)
  | .consume => .handshake .consume
  | .reset => .handshake .reset
  | .blake2bBlock h m t last => .request (encodePayload (blockPayload h m t last))
  | .blake2fZero rounds => .request (encodePayload (zeroPayload rounds))

/-- The instruction a pseudo-instruction stands for (30_encoding.md R87); any other stands for itself. -/
def Instr.expand : Instr → Instr
  | .blake2bBlock h m t last => .blake2f (blockPayload h m t last)
  | .blake2fZero rounds => .blake2f (zeroPayload rounds)
  | i => i

/-- The value of STRICT_FINAL_FLAG under which a request row of the opcode map is matched: the rows BLAKE2F.strict and
INVALID_FINAL_FLAG stand for strict mode (opcode table, match column). -/
def Instr.strictRow : Instr → Bool
  | .blake2fStrict _ => true
  | .invalidFinalFlag _ => true
  | _ => false

/-! ### The opcode table's words -/

/-- Why a word given as (number of bits, number) is no encoded object of the block. -/
inductive DecodeError where
  /-- A phase code of more than four bits (30_encoding.md R70, format PHASE4). -/
  | phaseCodeTooWide
  /-- A request that is not a whole number of bytes (30_encoding.md R70, format RAW). -/
  | notWholeBytes
  /-- A number with bits above the length given. -/
  | bitsAboveLength
  deriving DecidableEq, Repr

/-- The `n` bytes of a number, the least significant first: byte `k` is bits `8k` to `8k + 7`, as 30_encoding.md R71
numbers the bits of a payload. -/
def bytesOfNat : Nat → Nat → List Byte
  | 0, _ => []
  | n + 1, w => BitVec.ofNat 8 w :: bytesOfNat n (w / 256)

/-- A word of the opcode table: up to eight bits are a phase code (format PHASE4 in whole bytes); anything longer is a
request of that many bytes, read as outside strict mode (log entry 9). -/
def wireOfWord (nbits w : Nat) : Except DecodeError Wire :=
  if nbits ≤ 8 then
    if w < 16 then .ok (.phase (BitVec.ofNat 4 w)) else .error .phaseCodeTooWide
  else if nbits % 8 ≠ 0 then .error .notWholeBytes
  else if w / 2 ^ nbits ≠ 0 then .error .bitsAboveLength
  else .ok (.request (bytesOfNat (nbits / 8) w))

/-- The instruction the decoder reads from a word of the opcode table. -/
def decodeTableWord (nbits w : Nat) : Option Instr :=
  match wireOfWord nbits w with
  | .ok x => some (decodeWire false x)
  | .error _ => none

end Sys2Proof
end

