-- ==== Sys2Proof/Machine/Alu.lean ====
section
/-! DEFINITION. The word operators (42_mixer.md R140 to R142) and the two lane functions made of them (R150, R152). -/

namespace Sys2Proof.Machine

/-- ADD64: `(a + b) mod 2^64`, the carry discarded (42_mixer.md R140). -/
def add64 (a b : Word) : Word := a + b

/-- XOR64 (42_mixer.md R141). -/
def xor64 (a b : Word) : Word := a ^^^ b

/-- ROTR64 for 1 ≤ n ≤ 63: `((x >> n) | (x << (64 − n))) mod 2^64` (42_mixer.md R142). -/
def rotr64 (x : Word) (n : Nat) : Word := (x >>> n) ||| (x <<< (64 - n))

/-- A half of the BLAKE2b G with its two rotation amounts; each line reads what the lines before wrote
(42_mixer.md R150, R152; 70_reset_and_hazards.md R247). -/
def halfMix (rd rb : Nat) (q : Column) (x : Word) : Column :=
  let a := add64 (add64 q.a q.b) x
  let d := rotr64 (xor64 q.d a) rd
  let c := add64 q.c d
  let b := rotr64 (xor64 q.b c) rb
  { a := a, b := b, c := c, d := d }

/-- G1lane: rotations 32 and 24 (42_mixer.md R143, R150). -/
def g1Lane (q : Column) (x : Word) : Column := halfMix 32 24 q x

/-- G2lane: rotations 16 and 63 (42_mixer.md R143, R152). -/
def g2Lane (q : Column) (y : Word) : Column := halfMix 16 63 q y

end Sys2Proof.Machine
end

