-- ==== Sys2Proof/Machine/Rom.lean ====
section
/-! DEFINITION. The constant tables (10_state.md R31): the IV and SIGMA ROMs (42_mixer.md R146, R147) and the positions of
the schedule row that each G-phase feeds to its lanes (R149). -/

namespace Sys2Proof.Machine

/-- IV[0..7] (42_mixer.md R146). -/
def Rom.iv : Vector Word 8 :=
  #v[0x6a09e667f3bcc908, 0xbb67ae8584caa73b, 0x3c6ef372fe94f82b, 0xa54ff53a5f1d36f1,
     0x510e527fade682d1, 0x9b05688c2b3e6c1f, 0x1f83d9abfb41bd6b, 0x5be0cd19137e2179]

/-- SIGMA[0..9][0..15] (42_mixer.md R147). -/
def Rom.sigma : Vector (Vector (Fin 16) 16) 10 :=
  #v[#v[0, 1, 2, 3, 4, 5, 6, 7, 8, 9, 10, 11, 12, 13, 14, 15],
     #v[14, 10, 4, 8, 9, 15, 13, 6, 1, 12, 0, 2, 11, 7, 5, 3],
     #v[11, 8, 12, 0, 5, 2, 15, 13, 10, 14, 3, 6, 7, 1, 9, 4],
     #v[7, 9, 3, 1, 13, 12, 11, 14, 2, 6, 5, 10, 4, 0, 15, 8],
     #v[9, 0, 5, 7, 2, 4, 10, 15, 14, 1, 11, 12, 6, 8, 3, 13],
     #v[2, 12, 6, 10, 0, 11, 8, 3, 4, 13, 7, 5, 15, 14, 1, 9],
     #v[12, 5, 1, 15, 14, 13, 4, 10, 0, 7, 6, 3, 9, 2, 8, 11],
     #v[13, 11, 7, 14, 12, 1, 3, 9, 5, 0, 15, 4, 8, 6, 2, 10],
     #v[6, 15, 14, 9, 11, 3, 0, 8, 12, 2, 13, 7, 1, 4, 10, 5],
     #v[10, 2, 8, 4, 7, 6, 1, 5, 15, 11, 9, 14, 3, 12, 13, 0]]

/-- `S = SIGMA[I mod 10]`, the row of round `I` (42_mixer.md R147; the only modular index, 00_scope.md R13). -/
def Rom.sigmaRow (round : BitVec 32) : Vector (Fin 16) 16 :=
  Rom.sigma[round.toNat % 10]'(Nat.mod_lt _ (by decide))

/-- The positions of S that feed lanes 0 to 3, per G-phase (42_mixer.md R149). -/
def Select.g1c : Vector (Fin 16) 4 := #v[0, 2, 4, 6]
def Select.g2c : Vector (Fin 16) 4 := #v[1, 3, 5, 7]
def Select.g1d : Vector (Fin 16) 4 := #v[8, 10, 12, 14]
def Select.g2d : Vector (Fin 16) 4 := #v[9, 11, 13, 15]

end Sys2Proof.Machine
end

