-- ==== Sys2Proof/Machine/Operands.lean ====
section
/-! DEFINITION. The operand forms of the phases: the views of the working vector (10_state.md R25; 42_mixer.md R144, R145),
the message words a G-phase feeds to its lanes (R149), and the values a phase computes from its operands. -/

namespace Sys2Proof.Machine

/-! ### Views of V -/

/-- Lane `j` of row `r + 1` is `V[4r + j]` (10_state.md R25, with rows counted from 0). -/
def lane (v : Vector Word 16) (r j : Fin 4) : Word := v[4 * r.val + j.val]

/-- A row: its four lanes (42_mixer.md R144). -/
def row (v : Vector Word 16) (r : Fin 4) : Vector Word 4 := Vector.ofFn fun j => lane v r j

/-- The low 128-bit half of a row, lanes 0 and 1, lane 0 in the low 64 bits (42_mixer.md R145; 00_scope.md R10). -/
def rowLow (v : Vector Word 16) (r : Fin 4) : BitVec 128 := lane v r 1 ++ lane v r 0

/-- The high 128-bit half of a row, lanes 2 and 3 (42_mixer.md R145). -/
def rowHigh (v : Vector Word 16) (r : Fin 4) : BitVec 128 := lane v r 3 ++ lane v r 2

/-- Column `j`: lane `j` of the four rows (42_mixer.md R144). -/
def column (v : Vector Word 16) (j : Fin 4) : Column :=
  { a := lane v 0 j, b := lane v 1 j, c := lane v 2 j, d := lane v 3 j }

/-- The working vector with the given columns. -/
def ofColumns (q : Vector Column 4) : Vector Word 16 :=
  #v[q[0].a, q[1].a, q[2].a, q[3].a,
     q[0].b, q[1].b, q[2].b, q[3].b,
     q[0].c, q[1].c, q[2].c, q[3].c,
     q[0].d, q[1].d, q[2].d, q[3].d]

/-! ### The mixer's values -/

/-- The message words of a G-phase: lane `j` takes `M[S[pos j]]` with `S = SIGMA[I mod 10]` (42_mixer.md R149). -/
def messageWords (m : Vector Word 16) (round : BitVec 32) (pos : Vector (Fin 16) 4) : Vector Word 4 :=
  Vector.ofFn fun j => m[(Rom.sigmaRow round)[pos[j]]]

/-- A half-mix on the four columns (42_mixer.md R151, R153, R155, R156): the columns are disjoint, so one value each. -/
def mixColumns (f : Column → Word → Column) (x : Vector Word 4) (v : Vector Word 16) : Vector Word 16 :=
  ofColumns (Vector.ofFn fun j => f (column v j) x[j])

/-- G1C's new V (42_mixer.md R151). -/
def g1cValue (m : Vector Word 16) (round : BitVec 32) (v : Vector Word 16) : Vector Word 16 :=
  mixColumns g1Lane (messageWords m round Select.g1c) v

/-- G2C's new V (42_mixer.md R153). -/
def g2cValue (m : Vector Word 16) (round : BitVec 32) (v : Vector Word 16) : Vector Word 16 :=
  mixColumns g2Lane (messageWords m round Select.g2c) v

/-- DIAG's new V (42_mixer.md R154). -/
def diagValue (v : Vector Word 16) : Vector Word 16 :=
  #v[v[0], v[1], v[2], v[3],
     v[5], v[6], v[7], v[4],
     v[10], v[11], v[8], v[9],
     v[15], v[12], v[13], v[14]]

/-- G1D's new V (42_mixer.md R155). -/
def g1dValue (m : Vector Word 16) (round : BitVec 32) (v : Vector Word 16) : Vector Word 16 :=
  mixColumns g1Lane (messageWords m round Select.g1d) v

/-- G2D's new V (42_mixer.md R156). -/
def g2dValue (m : Vector Word 16) (round : BitVec 32) (v : Vector Word 16) : Vector Word 16 :=
  mixColumns g2Lane (messageWords m round Select.g2d) v

/-- UNDIAG's new V (42_mixer.md R157). -/
def undiagValue (v : Vector Word 16) : Vector Word 16 :=
  #v[v[0], v[1], v[2], v[3],
     v[7], v[4], v[5], v[6],
     v[10], v[11], v[8], v[9],
     v[13], v[14], v[15], v[12]]

/-! ### The serializer's values -/

/-- FIN's HOUT (43_serializer.md R180). -/
def finValue (h : Vector Word 8) (v : Vector Word 16) : Vector Word 8 :=
  Vector.ofFn fun k => xor64 (xor64 h[k] v[k.val]) v[k.val + 8]

/-- SER's 64 bytes: `OUT[8k + j] = HOUT[k][8j+7 : 8j]` (43_serializer.md R181, 30_encoding.md R78). -/
def serValue (hout : Vector Word 8) : List Byte := wordsBytes hout.toList

end Sys2Proof.Machine
end

