-- ==== Sys2Proof/Machine/Flags.lean ====
section
/-! DEFINITION. The block's flag-like values (10_state.md R34): the final-block flag F, its two words f0 and f1, the strict
check of the final byte, and the working vector INIT makes of them. No arithmetic sets a flag (R34). -/

namespace Sys2Proof.Machine

/-- `F ← (IN[212] != 0) ? 1 : 0` (41_decoder.md R127, 30_encoding.md R76). -/
def finalFlag (byte : Byte) : Bool := byte != 0

/-- Strict mode rejects the final bytes other than 0x00 and 0x01 (41_decoder.md R121). -/
def rejectsFinalByte (byte : Byte) : Bool := !(byte == 0x00 || byte == 0x01)

/-- `f0 = F ? 0xFFFFFFFFFFFFFFFF : 0` (42_mixer.md R148). -/
def f0 (f : Bool) : Word := if f then 0xFFFFFFFFFFFFFFFF else 0

/-- `f1 = 0` always (42_mixer.md R148). -/
def f1 : Word := 0

/-- INIT's V (42_mixer.md R148). -/
def initValue (h : Vector Word 8) (t : Vector Word 2) (f : Bool) : Vector Word 16 :=
  #v[h[0], h[1], h[2], h[3],
     h[4], h[5], h[6], h[7],
     Rom.iv[0], Rom.iv[1], Rom.iv[2], Rom.iv[3],
     xor64 Rom.iv[4] t[0], xor64 Rom.iv[5] t[1], xor64 Rom.iv[6] (f0 f), xor64 Rom.iv[7] f1]

end Sys2Proof.Machine
end

