-- ==== Sys2Proof/Machine/State.lean ====
section
/-! DEFINITION. The state of the machine (10_state.md): one block instance, and the other two agents, requester and
environment, as plain data. The reasons a step can stop. The machine right after reset. -/

namespace Sys2Proof.Machine

/-- A byte buffer: (offset, byte) cells with strictly rising offsets. An offset not listed holds no value. -/
abbrev Memory := List Host.Cell

/-- FSM codes (10_state.md R21). The value 3 is never entered. -/
abbrev Fsm.idle : BitVec 2 := 0
abbrev Fsm.busy : BitVec 2 := 1
abbrev Fsm.done : BitVec 2 := 2
abbrev Fsm.reserved : BitVec 2 := 3

/-- PHASE codes (30_encoding.md R79). -/
abbrev Phase.chk : BitVec 4 := 0x0
abbrev Phase.dec : BitVec 4 := 0x1
abbrev Phase.init : BitVec 4 := 0x2
abbrev Phase.g1c : BitVec 4 := 0x3
abbrev Phase.g2c : BitVec 4 := 0x4
abbrev Phase.diag : BitVec 4 := 0x5
abbrev Phase.g1d : BitVec 4 := 0x6
abbrev Phase.g2d : BitVec 4 := 0x7
abbrev Phase.undiag : BitVec 4 := 0x8
abbrev Phase.fin : BitVec 4 := 0x9
abbrev Phase.ser : BitVec 4 := 0xA

/-- STATUS codes (60_exceptions.md R201). The value 3 is never produced. -/
abbrev Status.ok : BitVec 2 := 0
abbrev Status.invalidInputLength : BitVec 2 := 1
abbrev Status.invalidFinalFlag : BitVec 2 := 2
abbrev Status.reserved : BitVec 2 := 3

/-- The two byte buffers of the block (20_memory.md R50). -/
inductive Space where
  /-- IN, 213 bytes. -/
  | input
  /-- OUT, 64 bytes. -/
  | output
  deriving DecidableEq, Repr

/-- The registers that can hold no value, by the spec's names (10_state.md R38). -/
inductive Reg where
  | PHASE
  | I
  | INLEN
  | ROUNDS
  | H
  | M
  | T
  | F
  | V
  | HOUT
  | STATUS
  deriving DecidableEq, Repr

/-- Why the machine stops. All are the model-level faults of 60_exceptions.md R217: the block never reaches them from
reset (70_reset_and_hazards.md R246). -/
inductive Fault where
  /-- A phase, CONSUME or the sequencer reads a register that holds no value (00_scope.md R12). Safe: the spec asks for it. -/
  | noValue (r : Reg)
  /-- CHK, DEC or CONSUME reads a byte of IN or OUT that holds no value (00_scope.md R12, 10_state.md R22). Safe: the spec asks for it. -/
  | noByte (sp : Space) (offset : Nat)
  /-- MemRead or MemWrite names an offset the buffer does not have (20_memory.md R50). No phase raises it: every offset is
  a constant inside its buffer (R59). Safe. -/
  | outsideBuffer (sp : Space) (offset : Nat)
  /-- PHASE holds a reserved code (30_encoding.md R84); raised by the step and by PHASE.reserved. Safe: the spec asks for it. -/
  | reservedPhase (code : BitVec 4)
  /-- FSM holds 3 (10_state.md R21); raised by the step and by every instruction that reads FSM. Safe: the spec asks for it. -/
  | reservedFsm
  /-- STATUS holds 3 (10_state.md R28, 30_encoding.md R77); raised by the step and by CONSUME. Safe: the spec asks for it. -/
  | reservedStatus
  deriving DecidableEq, Repr

/-- Why the model gives no meaning. -/
inductive Refusal where
  /-- Raised by no arm of the finished model: an instruction that has no meaning yet. Safe. -/
  | notModelled (mnemonic : String)
  /-- STRICT_FINAL_FLAG is changed while FSM ≠ IDLE: "a model refuses it" (70_reset_and_hazards.md R243,
  93_implementation_defined.md U7); raised by the environment's turn that changes it. Safe: the spec asks for it. -/
  | strictFlagChangedInFlight
  deriving DecidableEq, Repr

/-- What the requester gets at CONSUME (30_encoding.md R77): STATUS, and the 64 bytes of OUT when STATUS = OK. -/
structure Response where
  status : BitVec 2
  out : Option (List Byte)
  deriving DecidableEq, Repr

/-- What the other agents do, one turn at a time (log entry 4). -/
inductive Turn where
  /-- Nothing: the block takes its own step. -/
  | pass
  /-- A command of the requester, or RESET. -/
  | command (c : Handshake)
  /-- The environment sets STRICT_FINAL_FLAG (70_reset_and_hazards.md R243). -/
  | setStrictFinalFlag (value : Bool)
  deriving DecidableEq, Repr

/-- The state. A register that holds no value is `none` (00_scope.md R12, 10_state.md R38; log entries 1 and 2). -/
structure State where
  /-- FSM (10_state.md R21). -/
  fsm : BitVec 2
  /-- PHASE (R26). -/
  phase : Option (BitVec 4)
  /-- I, the round counter (R27). -/
  i : Option (BitVec 32)
  /-- IN[0..212] (R22). -/
  inBuf : Memory
  /-- INLEN (R23). -/
  inLen : Option Nat
  /-- ROUNDS (R24). -/
  rounds : Option (BitVec 32)
  /-- H[0..7] (R24). -/
  h : Option (Vector Word 8)
  /-- M[0..15] (R24). -/
  m : Option (Vector Word 16)
  /-- T[0..1] (R24). -/
  t : Option (Vector Word 2)
  /-- F (R24, R34). -/
  f : Option Bool
  /-- V[0..15] (R25). -/
  v : Option (Vector Word 16)
  /-- HOUT[0..7] (R29). -/
  hout : Option (Vector Word 8)
  /-- OUT[0..63] (R30). -/
  outBuf : Memory
  /-- STATUS (R28). -/
  status : Option (BitVec 2)
  /-- STRICT_FINAL_FLAG (R32). -/
  strict : Bool
  /-- The model's own: what requester and environment will do, next first (log entry 4). -/
  agenda : List Turn
  /-- The model's own: the responses the requester has received, oldest first (log entry 6). -/
  delivered : List Response
  deriving DecidableEq, Repr

/-- The machine right after reset (10_state.md R38), with R7's default of STRICT_FINAL_FLAG, and requester and environment
with nothing to do. -/
def State.reset : State :=
  { fsm := Fsm.idle
    phase := none
    i := none
    inBuf := []
    inLen := none
    rounds := none
    h := none
    m := none
    t := none
    f := none
    v := none
    hout := none
    outBuf := []
    status := none
    strict := Config.strictFinalFlagDefault
    agenda := []
    delivered := [] }

end Sys2Proof.Machine
end

