-- ==== Sys2Proof/Machine/Ops.lean ====
section
/-! DEFINITION. The named operations over registers and buffers (00_scope.md R12): reading a register, MemRead, MemWrite;
the one shared operation of raising an error (60_exceptions.md R200), and what CONSUME and RESET do to the
per-transaction registers (10_state.md R39). -/

namespace Sys2Proof.Machine

/-- What a meaning answers. -/
abbrev Out := Host.Outcome State Fault Refusal

/-- Go on from a next state; a fault or a refusal stays (60_exceptions.md R217: a fault is never cleared). -/
def andThen (o : Out) (k : State → Out) : Out :=
  match o with
  | .next s => k s
  | .fault r => .fault r
  | .refused r => .refused r

/-! ### Registers -/

/-- Read a register: its value, or the fault of a register that holds none (00_scope.md R12). -/
def readReg {α : Type} (r : Reg) (value : Option α) (k : α → Out) : Out :=
  match value with
  | some x => k x
  | none => .fault (.noValue r)

/-- Read FSM: its value, or the fault of the value 3 (10_state.md R21). -/
def readFsm (s : State) (k : BitVec 2 → Out) : Out :=
  if s.fsm = Fsm.reserved then .fault .reservedFsm else k s.fsm

/-- Read STATUS: its value, or the fault of the value 3 (10_state.md R28, 30_encoding.md R77). -/
def readStatus (s : State) (k : BitVec 2 → Out) : Out :=
  readReg .STATUS s.status fun c => if c = Status.reserved then .fault .reservedStatus else k c

/-! ### Buffers -/

/-- What an offset not listed reads as: no value (10_state.md R22, R38). -/
def Memory.unlisted : Option Byte := none

/-- Read one byte of a buffer. -/
def Memory.read : Memory → Nat → Option Byte
  | [], _ => Memory.unlisted
  | (o, b) :: rest, x => if x = o then some b else Memory.read rest x

/-- Write one byte of a buffer, keeping the offsets rising. -/
def Memory.write : Memory → Nat → Byte → Memory
  | [], x, b => [(x, b)]
  | (o, c) :: rest, x, b =>
    if x < o then (x, b) :: (o, c) :: rest
    else if x = o then (x, b) :: rest
    else (o, c) :: Memory.write rest x b

/-- Write consecutive bytes from an offset on. -/
def Memory.writeAll : Memory → Nat → List Byte → Memory
  | m, _, [] => m
  | m, x, b :: bs => Memory.write (Memory.writeAll m (x + 1) bs) x b

/-- Every listed offset is at least `lo` and below `size`, and the offsets rise strictly. -/
def Memory.wfFrom (size : Nat) : Nat → Memory → Bool
  | _, [] => true
  | lo, (o, _) :: rest => lo ≤ o && o < size && Memory.wfFrom size (o + 1) rest

/-- The canonical form of a buffer of `size` bytes. No entry can equal what an unlisted offset reads as, since that is no
value. -/
def Memory.wf (size : Nat) (m : Memory) : Bool := Memory.wfFrom size 0 m

/-- The number of bytes of a buffer (20_memory.md R50). -/
def Space.size : Space → Nat
  | .input => Config.payloadLen
  | .output => Config.outLen

/-- A buffer of the state. -/
def State.buffer (s : State) : Space → Memory
  | .input => s.inBuf
  | .output => s.outBuf

/-- The state with a buffer replaced. -/
def State.setBuffer (s : State) (sp : Space) (m : Memory) : State :=
  match sp with
  | .input => { s with inBuf := m }
  | .output => { s with outBuf := m }

/-- MemRead(a, n): the bytes at offsets `a` to `a + n - 1` (00_scope.md R12), or the fault of the first one that is outside the
buffer or holds no value. -/
def memRead (sp : Space) (a : Nat) : Nat → State → (List Byte → Out) → Out
  | 0, _, k => k []
  | n + 1, s, k =>
    if sp.size ≤ a then .fault (.outsideBuffer sp a)
    else
      match (s.buffer sp).read a with
      | none => .fault (.noByte sp a)
      | some b => memRead sp (a + 1) n s fun bs => k (b :: bs)

/-- MemWrite(a, n, bytes) (00_scope.md R12). Nothing is written when the bytes do not fit the buffer. -/
def memWrite (sp : Space) (a : Nat) (bytes : List Byte) (s : State) (k : State → Out) : Out :=
  if sp.size < a + bytes.length then .fault (.outsideBuffer sp (max a sp.size))
  else k (s.setBuffer sp ((s.buffer sp).writeAll a bytes))

/-! ### Errors, and the end of a transaction -/

/-- `raise E`: FSM ← DONE, STATUS ← E, and nothing else is written (60_exceptions.md R200, R207; 40_transaction.md R107). -/
def raise (code : BitVec 2) (s : State) : Out :=
  .next { s with fsm := Fsm.done, status := some code }

/-- FSM ← IDLE, and every per-transaction register holds no value (10_state.md R39; 40_transaction.md R108;
70_reset_and_hazards.md R240). STRICT_FINAL_FLAG and the other agents' data are not the transaction's. -/
def State.endTransaction (s : State) : State :=
  { s with
    fsm := Fsm.idle, phase := none, i := none, inBuf := [], inLen := none, rounds := none, h := none, m := none,
    t := none, f := none, v := none, hout := none, outBuf := [], status := none }

end Sys2Proof.Machine
end

