-- ==== Sys2Proof/Machine/Decoder.lean ====
section
/-! DEFINITION. The payload decoder (41_decoder.md): the phases CHK and DEC. -/

namespace Sys2Proof.Machine

/-- CHK (41_decoder.md R120, R121, R122): the length first, and no byte of IN is read before it; then, in strict mode only,
the final byte; else PHASE ← DEC. -/
def execPhaseChk (s : State) : Out :=
  readReg .INLEN s.inLen fun len =>
    if len ≠ Config.payloadLen then raise Status.invalidInputLength s
    else if s.strict then
      memRead .input 212 1 s fun byte =>
        if rejectsFinalByte (byte.getD 0 0) then raise Status.invalidFinalFlag s
        else .next { s with phase := some Phase.dec }
    else .next { s with phase := some Phase.dec }

/-- DEC's writes, from the fields of the payload (41_decoder.md R123 to R128). -/
def State.writeFields (s : State) (p : Payload) : State :=
  { s with
    rounds := some p.rounds, h := some p.h, m := some p.m, t := some p.t, f := some (finalFlag p.f),
    phase := some Phase.init }

/-- DEC (41_decoder.md R123 to R128): every byte of IN is read once; a byte that holds no value is a fault, never a zero
(R130). -/
def execPhaseDec (s : State) : Out :=
  memRead .input 0 Config.payloadLen s fun bytes =>
    match decodePayload bytes with
    | some p => .next (s.writeFields p)
    | none => .fault (.noByte .input bytes.length)

end Sys2Proof.Machine
end

