-- ==== Sys2Proof/Machine/Mixer.lean ====
section
/-! DEFINITION. The state mixer (42_mixer.md): the phases INIT, G1C, G2C, DIAG, G1D, G2D and UNDIAG, with their successors
(40_transaction.md R103 to R105). A phase is executed by the sequencer only while FSM = BUSY (R103): the step sees to
that (log entry 21). -/

namespace Sys2Proof.Machine

/-- INIT (42_mixer.md R148), then 40_transaction.md R104: FIN when ROUNDS = 0, else round 0. -/
def execPhaseInit (s : State) : Out :=
  readReg .H s.h fun h =>
  readReg .T s.t fun t =>
  readReg .F s.f fun f =>
  readReg .ROUNDS s.rounds fun rounds =>
    if rounds = 0 then .next { s with v := some (initValue h t f), phase := some Phase.fin }
    else .next { s with v := some (initValue h t f), i := some 0, phase := some Phase.g1c }

/-- What the four G-phases share (42_mixer.md R151, R153, R155, R156): they read V, M and I, write V, and set PHASE. -/
def mixPhase (value : Vector Word 16 → BitVec 32 → Vector Word 16 → Vector Word 16) (next : BitVec 4) (s : State) : Out :=
  readReg .V s.v fun v =>
  readReg .M s.m fun m =>
  readReg .I s.i fun i =>
    .next { s with v := some (value m i v), phase := some next }

/-- G1C (42_mixer.md R151). -/
def execPhaseG1c (s : State) : Out := mixPhase g1cValue Phase.g2c s

/-- G2C (42_mixer.md R153). -/
def execPhaseG2c (s : State) : Out := mixPhase g2cValue Phase.diag s

/-- DIAG (42_mixer.md R154). -/
def execPhaseDiag (s : State) : Out :=
  readReg .V s.v fun v => .next { s with v := some (diagValue v), phase := some Phase.g1d }

/-- G1D (42_mixer.md R155). -/
def execPhaseG1d (s : State) : Out := mixPhase g1dValue Phase.g2d s

/-- G2D (42_mixer.md R156). -/
def execPhaseG2d (s : State) : Out := mixPhase g2dValue Phase.undiag s

/-- UNDIAG (42_mixer.md R157), then 40_transaction.md R105: the next round when `I + 1 < ROUNDS`, compared exactly, else
FIN. -/
def execPhaseUndiag (s : State) : Out :=
  readReg .V s.v fun v =>
  readReg .I s.i fun i =>
  readReg .ROUNDS s.rounds fun rounds =>
    if i.toNat + 1 < rounds.toNat then
      .next { s with v := some (undiagValue v), i := some (i + 1), phase := some Phase.g1c }
    else .next { s with v := some (undiagValue v), phase := some Phase.fin }

/-- PHASE.reserved: a model whose PHASE holds a reserved code faults; it neither stalls nor skips (30_encoding.md R84). -/
def execPhaseReserved (code : BitVec 4) (_s : State) : Out := .fault (.reservedPhase code)

end Sys2Proof.Machine
end

