-- ==== Sys2Proof/Machine/Requester.lean ====
section
/-! DEFINITION. The commands of the requester and the environment: SUBMIT and CONSUME (40_transaction.md R101, R108), RESET
(70_reset_and_hazards.md R240), and the static input STRICT_FINAL_FLAG (R243). -/

namespace Sys2Proof.Machine

/-- The acceptance of a request, in one event: INLEN ← |B|, IN[k] ← B[k] for k < min(|B|, 213), FSM ← BUSY, PHASE ← CHK
(40_transaction.md R101). -/
def accept (bytes : List Byte) (s : State) : Out :=
  memWrite .input 0 (bytes.take Config.payloadLen) s fun s' =>
    .next { s' with inLen := some bytes.length, fsm := Fsm.busy, phase := some Phase.chk }

/-- SUBMIT (40_transaction.md R101). It is enabled only when FSM = IDLE; otherwise the requester holds and nothing happens
(R102). -/
def execSubmit (bytes : List Byte) (s : State) : Out :=
  readFsm s fun fsm => if fsm = Fsm.idle then accept bytes s else .next s

/-- The response of the transaction: STATUS, and the bytes of OUT only when STATUS = OK (40_transaction.md R108). -/
def response (s : State) (k : Response → Out) : Out :=
  readStatus s fun status =>
    if status = Status.ok then
      memRead .output 0 Config.outLen s fun out => k { status := status, out := some out }
    else k { status := status, out := none }

/-- CONSUME (40_transaction.md R108): the response is delivered and the transaction ends, in one event. It is enabled only when
FSM = DONE; otherwise the requester holds and nothing happens. -/
def execConsume (s : State) : Out :=
  readFsm s fun fsm =>
    if fsm = Fsm.done then
      response s fun r => .next { s.endTransaction with delivered := s.delivered ++ [r] }
    else .next s

/-- RESET (70_reset_and_hazards.md R240), in any state; a transaction in flight is abandoned with no response (R241). -/
def execReset (s : State) : Out := .next s.endTransaction

/-- The environment sets STRICT_FINAL_FLAG. A change is refused while FSM ≠ IDLE (70_reset_and_hazards.md R243;
93_implementation_defined.md U7); setting the value it has is no change. -/
def setStrictFinalFlag (value : Bool) (s : State) : Out :=
  if s.strict ≠ value ∧ s.fsm ≠ Fsm.idle then .refused .strictFlagChangedInFlight
  else .next { s with strict := value }

end Sys2Proof.Machine
end

