-- ==== Sys2Proof/Machine/Serializer.lean ====
section
/-! DEFINITION. The serializer (43_serializer.md): the phases FIN and SER. -/

namespace Sys2Proof.Machine

/-- FIN (43_serializer.md R180). -/
def execPhaseFin (s : State) : Out :=
  readReg .H s.h fun h =>
  readReg .V s.v fun v =>
    .next { s with hout := some (finValue h v), phase := some Phase.ser }

/-- SER (43_serializer.md R181), then R182: DONE with STATUS = OK. PHASE keeps its value (10_state.md R37; log entry 11). -/
def execPhaseSer (s : State) : Out :=
  readReg .HOUT s.hout fun hout =>
    memWrite .output 0 (serValue hout) s fun s' =>
      .next { s' with fsm := Fsm.done, status := some Status.ok }

end Sys2Proof.Machine
end

