-- ==== Sys2Proof/Machine/Transaction.lean ====
section
/-! DEFINITION. The BLAKE2F transaction end to end (40_transaction.md R100): the composition of SUBMIT and the phases, from
IDLE to DONE. The rows of the opcode table that are whole requests mean this (log entry 7). -/

namespace Sys2Proof.Machine

/-- The phase a code names, executed (40_transaction.md R103; 30_encoding.md R79). -/
def runPhase (code : BitVec 4) (s : State) : Out :=
  match code.toNat with
  | 0x0 => execPhaseChk s
  | 0x1 => execPhaseDec s
  | 0x2 => execPhaseInit s
  | 0x3 => execPhaseG1c s
  | 0x4 => execPhaseG2c s
  | 0x5 => execPhaseDiag s
  | 0x6 => execPhaseG1d s
  | 0x7 => execPhaseG2d s
  | 0x8 => execPhaseUndiag s
  | 0x9 => execPhaseFin s
  | 0xA => execPhaseSer s
  | _ => execPhaseReserved code s

/-- One step of the sequencer (40_transaction.md R103): while FSM = BUSY, the phase that PHASE names. A block that is not BUSY
takes no step (60_exceptions.md R216). -/
def sequencerStep (s : State) : Out :=
  readFsm s fun fsm =>
    if fsm = Fsm.busy then readReg .PHASE s.phase fun code => runPhase code s else .next s

/-- The sequencer's steps while it is BUSY, `n` of them at most. -/
def sequencerSteps : Nat → State → Out
  | 0, s => .next s
  | n + 1, s => if s.fsm = Fsm.busy then andThen (sequencerStep s) (sequencerSteps n) else .next s

/-- The number of sequencer steps that bring an accepted request to DONE: `5 + 6 · ROUNDS` (40_transaction.md R109); a rejected
one is DONE after the first. -/
def stepBound (bytes : List Byte) : Nat :=
  match decodePayload bytes with
  | some p => 5 + 6 * p.rounds.toNat
  | none => 1

/-- The whole transaction of a request: its acceptance, then the sequencer until DONE (40_transaction.md R100). While the block
is not IDLE the requester holds (R102). -/
def transact (bytes : List Byte) (s : State) : Out :=
  readFsm s fun fsm =>
    if fsm = Fsm.idle then andThen (accept bytes s) (sequencerSteps (stepBound bytes)) else .next s

/-- BLAKE2F (40_transaction.md R100). -/
def execBlake2f (p : Payload) (s : State) : Out := transact (encodePayload p) s

/-- BLAKE2F.strict: "Same semantics as BLAKE2F" (opcode table; 40_transaction.md R100). -/
def execBlake2fStrict (p : Payload) (s : State) : Out := transact (encodePayload p) s

/-- INVALID_INPUT_LENGTH: a RAW request that CHK rejects for its length (60_exceptions.md R202). -/
def execInvalidInputLength (bytes : List Byte) (s : State) : Out := transact bytes s

/-- INVALID_FINAL_FLAG: a request that CHK rejects, in strict mode, for its final byte (60_exceptions.md R203). Outside strict
mode that rule never raises and the same bytes are a BLAKE2F command (30_encoding.md R82). -/
def execInvalidFinalFlag (p : Payload) (s : State) : Out := transact (encodePayload p) s

/-- blake2b.block expands to BLAKE2F with 12 rounds (30_encoding.md R87). -/
def execBlake2bBlock (h : Vector Word 8) (m : Vector Word 16) (t : Vector Word 2) (last : Bool) (s : State) : Out :=
  transact (encodePayload (blockPayload h m t last)) s

/-- blake2f.zero expands to BLAKE2F with every field but `rounds` zero (30_encoding.md R87). -/
def execBlake2fZero (rounds : BitVec 32) (s : State) : Out := transact (encodePayload (zeroPayload rounds)) s

end Sys2Proof.Machine
end

