-- ==== Sys2Proof/Machine/Dispatch.lean ====
section
/-! DEFINITION. The dispatch of instructions to their meanings: one arm per constructor of Instr. -/

namespace Sys2Proof.Machine

/-- The meaning of an instruction. -/
def exec (i : Instr) (s : State) : Host.Outcome State Fault Refusal :=
  match i with
  | .blake2f p => Sys2Proof.Machine.execBlake2f p s
  | .blake2fStrict p => Sys2Proof.Machine.execBlake2fStrict p s
  | .invalidInputLength bytes => Sys2Proof.Machine.execInvalidInputLength bytes s
  | .invalidFinalFlag p => Sys2Proof.Machine.execInvalidFinalFlag p s
  | .phaseChk => Sys2Proof.Machine.execPhaseChk s
  | .phaseDec => Sys2Proof.Machine.execPhaseDec s
  | .phaseInit => Sys2Proof.Machine.execPhaseInit s
  | .phaseG1c => Sys2Proof.Machine.execPhaseG1c s
  | .phaseG2c => Sys2Proof.Machine.execPhaseG2c s
  | .phaseDiag => Sys2Proof.Machine.execPhaseDiag s
  | .phaseG1d => Sys2Proof.Machine.execPhaseG1d s
  | .phaseG2d => Sys2Proof.Machine.execPhaseG2d s
  | .phaseUndiag => Sys2Proof.Machine.execPhaseUndiag s
  | .phaseFin => Sys2Proof.Machine.execPhaseFin s
  | .phaseSer => Sys2Proof.Machine.execPhaseSer s
  | .phaseReserved code => Sys2Proof.Machine.execPhaseReserved code s
  | .submit bytes => Sys2Proof.Machine.execSubmit bytes s
  | .consume => Sys2Proof.Machine.execConsume s
  | .reset => Sys2Proof.Machine.execReset s
  | .blake2bBlock h m t last => Sys2Proof.Machine.execBlake2bBlock h m t last s
  | .blake2fZero rounds => Sys2Proof.Machine.execBlake2fZero rounds s

end Sys2Proof.Machine
end

