-- ==== Sys2Proof/Machine/Fetch.lean ====
section
/-! DEFINITION. What runs next: the next turn of requester and environment, or the phase that PHASE names (10_state.md R26,
40_transaction.md R102, R103); and how an instruction is placed so that it runs next. -/

namespace Sys2Proof.Machine

/-- What the next step does. -/
inductive Fetched where
  /-- Run an instruction on a state. -/
  | run (i : Instr) (s : State)
  /-- The environment sets STRICT_FINAL_FLAG. -/
  | configure (value : Bool) (s : State)
  /-- Nothing: a block that is not BUSY takes no step (60_exceptions.md R216). -/
  | idle (s : State)
  /-- The state is one no rule enters (60_exceptions.md R217). -/
  | stop (r : Fault)
  deriving DecidableEq, Repr

/-- The block's own step: while FSM = BUSY, the phase that PHASE names (40_transaction.md R103); else none (60_exceptions.md
R216). -/
def fetchPhase (s : State) : Fetched :=
  if s.fsm = Fsm.busy then
    match s.phase with
    | some code => .run (decodePhase code) s
    | none => .stop (.noValue .PHASE)
  else .idle s

/-- Which commands a state enables: SUBMIT in IDLE, CONSUME in DONE (40_transaction.md R101, R108), RESET in any state
(70_reset_and_hazards.md R240). -/
def State.enables (s : State) : Handshake → Bool
  | .submit _ => s.fsm == Fsm.idle
  | .consume => s.fsm == Fsm.done
  | .reset => true

/-- The turn that is taken next, and the turns that remain. A command that is not enabled holds and is not taken (40_transaction.md
R102). While the block is BUSY its own steps lift the hold, and no turn behind the command is taken before that. A block that is not
BUSY takes no step of its own, so the turns behind the command go first: a SUBMIT held in DONE lets the CONSUME that lifts the hold
by (log entry 5). -/
def State.nextTurn (s : State) : List Turn → Option (Turn × List Turn)
  | [] => none
  | .pass :: rest => some (.pass, rest)
  | .setStrictFinalFlag value :: rest => some (.setStrictFinalFlag value, rest)
  | .command c :: rest =>
    if s.enables c then some (.command c, rest)
    else if s.fsm = Fsm.busy then none
    else (s.nextTurn rest).map fun (turn, others) => (turn, .command c :: others)

/-- The next turn, once it is known that no register holds a reserved value. Where no turn is taken the block takes its own step. -/
def fetchTurn (s : State) : Fetched :=
  match s.nextTurn s.agenda with
  | none => fetchPhase s
  | some (.pass, rest) => fetchPhase { s with agenda := rest }
  | some (.setStrictFinalFlag value, rest) => .configure value { s with agenda := rest }
  | some (.command c, rest) => .run (decodeHandshake c) { s with agenda := rest }

/-- The fault of a state in which a register holds a reserved value: FSM or STATUS the value 3, PHASE a code of 0xB or above, in BUSY
or not (60_exceptions.md R217; 30_encoding.md R84). Which of them the fault names, when several do, is the model's choice, and so is
that it comes before any turn, RESET and the turns of STRICT_FINAL_FLAG included (log entry 12). -/
def State.reservedValue (s : State) : Option Fault :=
  if s.fsm = Fsm.reserved then some .reservedFsm
  else if s.status = some Status.reserved then some .reservedStatus
  else
    match s.phase with
    | some code => if Phase.ser < code then some (.reservedPhase code) else none
    | none => none

/-- What the next step does. A state in which a register holds a reserved value faults, whatever comes next (60_exceptions.md R217). -/
def fetch (s : State) : Fetched :=
  match s.reservedValue with
  | some r => .stop r
  | none => fetchTurn s

/-! ### Placing an instruction -/

/-- A register that earlier phases have written by now, given a value where it holds none. -/
def filled {α : Type} (written : Bool) (value : Option α) (fill : α) : Option α :=
  if written then value.or (some fill) else value

/-- The state in which the sequencer is about to execute the phase `code`: FSM = BUSY, PHASE = `code`, nothing that comes first, and
in each register that earlier phases have written by then a value, where it holds none, as of the request blake2f.zero with one
round (70_reset_and_hazards.md R246; log entry 8). -/
def State.inFlight (s : State) (code : BitVec 4) : State :=
  let p := zeroPayload 1
  { s with
    fsm := Fsm.busy
    phase := some code
    agenda := []
    inLen := s.inLen.or (some Config.payloadLen)
    inBuf := if s.inLen.isSome then s.inBuf else Memory.writeAll [] 0 (encodePayload p)
    rounds := filled (Phase.init ≤ code) s.rounds p.rounds
    h := filled (Phase.init ≤ code) s.h p.h
    m := filled (Phase.init ≤ code) s.m p.m
    t := filled (Phase.init ≤ code) s.t p.t
    f := filled (Phase.init ≤ code) s.f false
    v := filled (Phase.g1c ≤ code) s.v (Vector.replicate 16 0)
    i := filled (Phase.g1c ≤ code) s.i 0
    hout := filled (Phase.ser ≤ code) s.hout (Vector.replicate 8 0) }

/-- The state in which a wire object is the next thing to run: a phase in flight; a request as the SUBMIT of its bytes to an
idle block (30_encoding.md R86); a handshake event as the next turn. -/
def State.place (s : State) : Wire → State
  | .phase code => s.inFlight code
  | .request bytes => { s with fsm := Fsm.idle, agenda := [.command (.submit bytes)] }
  | .handshake c => { s with agenda := [.command c] }

end Sys2Proof.Machine
end

