-- ==== Sys2Proof/Machine/Step.lean ====
section
/-! DEFINITION. One step of the machine, and the placing of an instruction's word so that the next step runs it. -/

namespace Sys2Proof.Machine

/-- One step: what the fetch says (40_transaction.md R103; 20_memory.md R60). -/
def step (s : State) : Host.Outcome State Fault Refusal :=
  match fetch s with
  | .run i s' => exec i s'
  | .configure value s' => setStrictFinalFlag value s'
  | .idle s' => .next s'
  | .stop r => .fault r

/-- `s` with the instruction of an opcode-table word placed so that the next step runs it (log entry 8). A word that is no
encoded object places nothing. -/
def State.withFetchWord (s : State) (nbits w : Nat) : State :=
  match wireOfWord nbits w with
  | .ok x => s.place x
  | .error _ => s

end Sys2Proof.Machine
end

