-- ==== Sys2Proof/Laws/Codec.lean ====
section
/-! SUPPORT. The codec's laws: words to bytes and back, and the payload's fields at their offsets. -/

namespace Sys2Proof

/-! ### Words and bytes -/

@[simp] theorem le64bytes_length (w : Word) : (le64bytes w).length = 8 := by simp [le64bytes]

@[simp] theorem be32bytes_length (w : BitVec 32) : (be32bytes w).length = 4 := by simp [be32bytes]

theorem leNat_le64bytes (w : Word) : leNat (le64bytes w) = w.toNat := by
  have h := w.isLt
  simp only [le64bytes, List.range, List.range.loop, List.map, leNat, BitVec.extractLsb'_toNat, Nat.shiftRight_eq_div_pow]
  omega

theorem beNat_be32bytes (w : BitVec 32) : beNat (be32bytes w) = w.toNat := by
  have h := w.isLt
  simp only [beNat, be32bytes, List.range, List.range.loop, List.map, List.reverse_cons, List.reverse_nil, List.nil_append,
    List.cons_append, leNat, BitVec.extractLsb'_toNat, Nat.shiftRight_eq_div_pow]
  omega

/-- Eight bytes are the bytes of the word they give. -/
theorem le64bytes_ofNat_leNat {bs : List Byte} (h : bs.length = 8) : le64bytes (BitVec.ofNat 64 (leNat bs)) = bs := by
  obtain ⟨b0, b1, b2, b3, b4, b5, b6, b7, rfl⟩ : ∃ b0 b1 b2 b3 b4 b5 b6 b7, bs = [b0, b1, b2, b3, b4, b5, b6, b7] := by
    match bs, h with
    | [b0, b1, b2, b3, b4, b5, b6, b7], _ => exact ⟨b0, b1, b2, b3, b4, b5, b6, b7, rfl⟩
  have h0 := b0.isLt; have h1 := b1.isLt; have h2 := b2.isLt; have h3 := b3.isLt
  have h4 := b4.isLt; have h5 := b5.isLt; have h6 := b6.isLt; have h7 := b7.isLt
  simp only [le64bytes, List.range, List.range.loop, List.map, leNat, List.cons.injEq, and_true]
  refine ⟨?_, ?_, ?_, ?_, ?_, ?_, ?_, ?_⟩ <;>
    (apply BitVec.eq_of_toNat_eq
     simp only [BitVec.extractLsb'_toNat, BitVec.toNat_ofNat, Nat.shiftRight_eq_div_pow]
     omega)

/-- Four bytes are the bytes of the u32 they give. -/
theorem be32bytes_ofNat_beNat {bs : List Byte} (h : bs.length = 4) : be32bytes (BitVec.ofNat 32 (beNat bs)) = bs := by
  obtain ⟨b0, b1, b2, b3, rfl⟩ : ∃ b0 b1 b2 b3, bs = [b0, b1, b2, b3] := by
    match bs, h with
    | [b0, b1, b2, b3], _ => exact ⟨b0, b1, b2, b3, rfl⟩
  have h0 := b0.isLt; have h1 := b1.isLt; have h2 := b2.isLt; have h3 := b3.isLt
  simp only [beNat, be32bytes, List.range, List.range.loop, List.map, List.reverse_cons, List.reverse_nil, List.nil_append,
    List.cons_append, leNat, List.cons.injEq, and_true]
  refine ⟨?_, ?_, ?_, ?_⟩ <;>
    (apply BitVec.eq_of_toNat_eq
     simp only [BitVec.extractLsb'_toNat, BitVec.toNat_ofNat, Nat.shiftRight_eq_div_pow]
     omega)

/-! ### Slices -/

theorem slice_length {B : List Byte} {o n : Nat} (h : o + n ≤ B.length) : (slice B o n).length = n := by
  simp [slice]; omega

theorem slice_append_left (A B : List Byte) (n : Nat) (h : A.length = n) : slice (A ++ B) 0 n = A := by
  simp [slice, ← h]

theorem slice_append_right (A B : List Byte) (o n : Nat) (h : A.length ≤ o) :
    slice (A ++ B) o n = slice B (o - A.length) n := by
  simp [slice, List.drop_append, List.drop_eq_nil_of_le h]

theorem slice_append_slice (B : List Byte) (o n k : Nat) : slice B o n ++ slice B (o + n) k = slice B o (n + k) := by
  simp [slice, List.take_add, List.drop_drop]

theorem slice_zero_length (B : List Byte) : slice B 0 B.length = B := by simp [slice]

/-! ### Sequences of words -/

theorem wordsBytes_length (ws : List Word) : (wordsBytes ws).length = 8 * ws.length := by
  induction ws with
  | nil => rfl
  | cons w ws ih =>
    have : wordsBytes (w :: ws) = le64bytes w ++ wordsBytes ws := rfl
    rw [this, List.length_append, ih, le64bytes_length, List.length_cons]
    omega

/-- Word `k` of a sequence of words lies at offset `8k`, whatever follows. -/
theorem slice_wordsBytes (ws : List Word) (rest : List Byte) (k : Nat) (hk : k < ws.length) :
    slice (wordsBytes ws ++ rest) (8 * k) 8 = le64bytes ws[k] := by
  induction ws generalizing k with
  | nil => simp at hk
  | cons w ws ih =>
    have e : wordsBytes (w :: ws) ++ rest = le64bytes w ++ (wordsBytes ws ++ rest) := by
      show (le64bytes w ++ wordsBytes ws) ++ rest = _
      rw [List.append_assoc]
    rw [e]
    cases k with
    | zero => exact slice_append_left _ _ 8 (le64bytes_length w)
    | succ k =>
      rw [slice_append_right _ _ _ _ (by simp), le64bytes_length,
        show 8 * (k + 1) - 8 = 8 * k by omega]
      exact ih k (by simpa using hk)

/-- The bytes of the words read at consecutive offsets are the bytes there. -/
theorem wordsBytes_le64 (B : List Byte) (o n : Nat) (h : o + 8 * n ≤ B.length) :
    wordsBytes ((List.range n).map fun k => le64 B (o + 8 * k)) = slice B o (8 * n) := by
  induction n with
  | zero => simp [wordsBytes, slice]
  | succ n ih =>
    have e : wordsBytes ((List.range (n + 1)).map fun k => le64 B (o + 8 * k)) =
        wordsBytes ((List.range n).map fun k => le64 B (o + 8 * k)) ++ le64bytes (le64 B (o + 8 * n)) := by
      simp [List.range_succ, wordsBytes]
    rw [e, ih (by omega), le64, le64bytes_ofNat_leNat (slice_length (by omega)), slice_append_slice,
      show 8 * n + 8 = 8 * (n + 1) by omega]

/-! ### The payload -/

theorem encodePayload_length (p : Payload) : (encodePayload p).length = 213 := by
  simp [encodePayload, wordsBytes_length]

theorem le64_of_slice {B : List Byte} {o : Nat} {w : Word} (h : slice B o 8 = le64bytes w) : le64 B o = w := by
  rw [le64, h, leNat_le64bytes, BitVec.ofNat_toNat, BitVec.setWidth_eq]

theorem decodePayload_eq_none {B : List Byte} (h : B.length ≠ 213) : decodePayload B = none := if_neg h

theorem decodePayload_isSome {B : List Byte} (h : B.length = 213) : ∃ p, decodePayload B = some p :=
  ⟨_, if_pos h⟩

theorem length_of_decodePayload {B : List Byte} {p : Payload} (h : decodePayload B = some p) : B.length = 213 := by
  unfold decodePayload at h
  split at h
  · assumption
  · cases h

theorem decodePayload_encodePayload (p : Payload) : decodePayload (encodePayload p) = some p := by
  rw [decodePayload, if_pos (encodePayload_length p)]
  have hr : be32 (encodePayload p) 0 = p.rounds := by
    rw [be32, encodePayload, slice_append_left _ _ 4 (be32bytes_length _), beNat_be32bytes, BitVec.ofNat_toNat,
      BitVec.setWidth_eq]
  have hh : (Vector.ofFn fun k : Fin 8 => le64 (encodePayload p) (4 + 8 * k)) = p.h := by
    refine Vector.ext fun k hk => ?_
    rw [Vector.getElem_ofFn]
    refine le64_of_slice ?_
    rw [encodePayload, slice_append_right _ _ _ _ (by simp), be32bytes_length, Nat.add_sub_cancel_left,
      slice_wordsBytes _ _ _ (by simpa using hk)]
    simp
  have hm : (Vector.ofFn fun k : Fin 16 => le64 (encodePayload p) (68 + 8 * k)) = p.m := by
    refine Vector.ext fun k hk => ?_
    rw [Vector.getElem_ofFn]
    refine le64_of_slice ?_
    rw [encodePayload, slice_append_right _ _ _ _ (by simp; omega),
      slice_append_right _ _ _ _ (by simp [wordsBytes_length]; omega)]
    simp only [be32bytes_length, wordsBytes_length, Vector.length_toList]
    rw [show 68 + 8 * k - 4 - 8 * 8 = 8 * k by omega, slice_wordsBytes _ _ _ (by simpa using hk)]
    simp
  have ht : (Vector.ofFn fun k : Fin 2 => le64 (encodePayload p) (196 + 8 * k)) = p.t := by
    refine Vector.ext fun k hk => ?_
    rw [Vector.getElem_ofFn]
    refine le64_of_slice ?_
    rw [encodePayload, slice_append_right _ _ _ _ (by simp; omega),
      slice_append_right _ _ _ _ (by simp [wordsBytes_length]; omega),
      slice_append_right _ _ _ _ (by simp [wordsBytes_length]; omega)]
    simp only [be32bytes_length, wordsBytes_length, Vector.length_toList]
    rw [show 196 + 8 * k - 4 - 8 * 8 - 8 * 16 = 8 * k by omega, slice_wordsBytes _ _ _ (by simpa using hk)]
    simp
  have hf : (encodePayload p).getD 212 0 = p.f := by
    simp [encodePayload, List.getD, wordsBytes_length]
  rw [hr, hh, hm, ht, hf]

theorem vector_ofFn_toList {n : Nat} (g : Nat → Word) :
    (Vector.ofFn fun k : Fin n => g k).toList = (List.range n).map g := by
  apply List.ext_getElem
  · simp
  · intro k h1 h2
    simp

theorem slice_one (B : List Byte) (o : Nat) (h : o < B.length) : slice B o 1 = [B.getD o 0] := by
  rw [slice, List.drop_eq_getElem_cons h, List.take_succ_cons, List.take_zero]
  simp [List.getD, List.getElem?_eq_getElem h]

theorem encodePayload_of_decodePayload {B : List Byte} {p : Payload} (h : decodePayload B = some p) :
    encodePayload p = B := by
  have hlen := length_of_decodePayload h
  rw [decodePayload, if_pos hlen] at h
  have hp := (Option.some.inj h).symm
  subst hp
  unfold encodePayload
  simp only
  rw [vector_ofFn_toList (n := 8) (fun k => le64 B (4 + 8 * k)), vector_ofFn_toList (n := 16) (fun k => le64 B (68 + 8 * k)),
    vector_ofFn_toList (n := 2) (fun k => le64 B (196 + 8 * k)), wordsBytes_le64 _ _ _ (by omega),
    wordsBytes_le64 _ _ _ (by omega), wordsBytes_le64 _ _ _ (by omega), be32,
    be32bytes_ofNat_beNat (slice_length (by omega)), ← slice_one B 212 (by omega), slice_append_slice, slice_append_slice,
    slice_append_slice]
  have := slice_append_slice B 0 4 (8 * 8 + (8 * 16 + (8 * 2 + 1)))
  rw [Nat.zero_add] at this
  rw [this]
  simpa [hlen] using slice_zero_length B

end Sys2Proof
end

