-- ==== Sys2Proof/Laws/PerInstr.lean ====
section
/-! SUPPORT. The per-instruction family RoundTrip: decoding what an instruction encodes to gives the instruction back, or, for a
pseudo-instruction, the command it expands to (30_encoding.md R71, R79 to R81, R87). One lemma per constructor of Instr. -/

namespace Sys2Proof.Laws.RoundTrip

/-- A well-formed instruction, encoded and decoded in the mode of its row, is the instruction its row stands for. -/
def Statement (i : Instr) : Prop := i.wellFormed = true → decodeWire i.strictRow (encode i) = i.expand

theorem blake2f (p : Payload) : Statement (.blake2f p) := fun _ => by
  simp [Instr.strictRow, encode, decodeWire, decodeRequest, decodePayload_encodePayload, Instr.expand]

theorem blake2fStrict (p : Payload) : Statement (.blake2fStrict p) := fun h => by
  simp only [Instr.wellFormed] at h
  simp [Instr.strictRow, encode, decodeWire, decodeRequest, decodePayload_encodePayload, Instr.expand, h]

theorem invalidInputLength (bytes : List Byte) : Statement (.invalidInputLength bytes) := fun h => by
  have hlen : bytes.length ≠ 213 := by simpa [Instr.wellFormed] using h
  simp [encode, decodeWire, decodeRequest, decodePayload_eq_none hlen, Instr.expand]

theorem invalidFinalFlag (p : Payload) : Statement (.invalidFinalFlag p) := fun h => by
  simp only [Instr.wellFormed, Bool.not_eq_true'] at h
  simp [Instr.strictRow, encode, decodeWire, decodeRequest, decodePayload_encodePayload, Instr.expand, h]

theorem phaseChk : Statement .phaseChk := fun _ => rfl
theorem phaseDec : Statement .phaseDec := fun _ => rfl
theorem phaseInit : Statement .phaseInit := fun _ => rfl
theorem phaseG1c : Statement .phaseG1c := fun _ => rfl
theorem phaseG2c : Statement .phaseG2c := fun _ => rfl
theorem phaseDiag : Statement .phaseDiag := fun _ => rfl
theorem phaseG1d : Statement .phaseG1d := fun _ => rfl
theorem phaseG2d : Statement .phaseG2d := fun _ => rfl
theorem phaseUndiag : Statement .phaseUndiag := fun _ => rfl
theorem phaseFin : Statement .phaseFin := fun _ => rfl
theorem phaseSer : Statement .phaseSer := fun _ => rfl

theorem phaseReserved (code : BitVec 4) : Statement (.phaseReserved code) := fun h => by
  have key : ∀ c : BitVec 4, 0xB#4 ≤ c → decodePhase c = .phaseReserved c := by decide
  exact key code (by simpa [Instr.wellFormed] using h)

theorem submit (bytes : List Byte) : Statement (.submit bytes) := fun _ => rfl
theorem consume : Statement .consume := fun _ => rfl
theorem reset : Statement .reset := fun _ => rfl

theorem blake2bBlock (h : Vector Word 8) (m : Vector Word 16) (t : Vector Word 2) (last : Bool) :
    Statement (.blake2bBlock h m t last) := fun _ => by
  simp [Instr.strictRow, encode, decodeWire, decodeRequest, decodePayload_encodePayload, Instr.expand]

theorem blake2fZero (rounds : BitVec 32) : Statement (.blake2fZero rounds) := fun _ => by
  simp [Instr.strictRow, encode, decodeWire, decodeRequest, decodePayload_encodePayload, Instr.expand]

end Sys2Proof.Laws.RoundTrip
end

