-- ==== Sys2Proof/Machine/Assembly.lean ====
section
/-! DEFINITION. The textual form of requests and programs (30_encoding.md R86 to R88): the printer, the assembler of a line,
and what a line does on the wire. A text is a list of characters. The machine never reads text; programs written in it
become the requester's commands (log entry 15). -/

namespace Sys2Proof.Machine.Assembly

abbrev Text := List Char

/-! ### Printing (R88) -/

/-- A digit, 0 to 15, in lowercase. -/
def digitChar (d : Nat) : Char :=
  if d < 10 then Char.ofNat (48 + d) else Char.ofNat (87 + d)

/-- A number in decimal, of at most `k` digits. -/
def decimal : Nat → Nat → Text
  | 0, _ => []
  | k + 1, n => if n < 10 then [digitChar n] else decimal k (n / 10) ++ [digitChar (n % 10)]

/-- The lowest `k` hexadecimal digits of a number, the most significant first. -/
def hexDigits : Nat → Nat → Text
  | 0, _ => []
  | k + 1, n => hexDigits k (n / 16) ++ [digitChar (n % 16)]

/-- A u64 as `0x` followed by 16 lowercase hex digits (R88). -/
def printWord (w : Word) : Text := '0' :: 'x' :: hexDigits 16 w.toNat

/-- Texts with a separator between them. -/
def separated (sep : Text) : List Text → Text
  | [] => []
  | [t] => t
  | t :: ts => t ++ (sep ++ separated sep ts)

/-- A list of u64 words in brackets (R86). -/
def printWords (ws : List Word) : Text :=
  '[' :: (separated [',', ' '] (ws.map printWord) ++ [']'])

/-- The canonical `blake2f` line of a payload (R88). -/
def printPayload (p : Payload) : Text :=
  "blake2f rounds=".toList ++ (decimal 10 p.rounds.toNat ++
  (", h=".toList ++ (printWords p.h.toList ++
  (", m=".toList ++ (printWords p.m.toList ++
  (", t=".toList ++ (printWords p.t.toList ++
  (", f=".toList ++ decimal 3 p.f.toNat))))))))

/-- A byte string in hexadecimal, first byte first. R88 fixes lowercase for the words only: the bytes after `blake2f.raw` are printed
in lowercase too (DESIGN CHOICE, log entry 15). -/
def printBytes (bytes : List Byte) : Text := bytes.flatMap fun b => hexDigits 2 b.toNat

/-- A request in its canonical form: a legal PAYLOAD213 as a `blake2f` line, an illegal request as `blake2f.raw` with its bytes
(R88; what is legal depends on STRICT_FINAL_FLAG, R80). -/
def printRequest (strict : Bool) (bytes : List Byte) : Text :=
  match decodeRequest strict bytes with
  | .blake2f p => printPayload p
  | .blake2fStrict p => printPayload p
  | _ => "blake2f.raw ".toList ++ printBytes bytes

/-! ### Assembling (R86, R87)

A reader takes a text and answers what it read and the text that follows. -/

/-- Drop the spaces a text begins with. -/
def skipSpaces : Text → Text
  | [] => []
  | c :: cs => if c = ' ' ∨ c = '\t' ∨ c = '\r' then skipSpaces cs else c :: cs

/-- The text after a given beginning. -/
def afterPrefix : Text → Text → Option Text
  | [], cs => some cs
  | _ :: _, [] => none
  | p :: ps, c :: cs => if p = c then afterPrefix ps cs else none

/-- The text after a given word, spaces before it skipped. -/
def expect (word : Text) (cs : Text) : Option Text := afterPrefix word (skipSpaces cs)

/-- The value of a digit, 0 to 15. R86 does not say in which letter case a hexadecimal digit is written: both are read, while the
prefix `0x` is read in lowercase only (DESIGN CHOICE, log entry 15). -/
def digitValue (c : Char) : Option Nat :=
  if '0' ≤ c ∧ c ≤ '9' then some (c.toNat - 48)
  else if 'a' ≤ c ∧ c ≤ 'f' then some (c.toNat - 87)
  else if 'A' ≤ c ∧ c ≤ 'F' then some (c.toNat - 55)
  else none

/-- The number the digits of a base give, on top of an accumulated one, and the text after them. -/
def readDigits (base : Nat) : Nat → Text → Nat × Text
  | n, [] => (n, [])
  | n, c :: cs =>
    match digitValue c with
    | some d => if d < base then readDigits base (base * n + d) cs else (n, c :: cs)
    | none => (n, c :: cs)

/-- At least one digit of a base. -/
def readNatOf (base : Nat) (cs : Text) : Option (Nat × Text) :=
  match cs with
  | [] => none
  | c :: _ =>
    match digitValue c with
    | some d => if d < base then some (readDigits base 0 cs) else none
    | none => none

/-- A number, decimal or `0x`-prefixed hexadecimal (R86), spaces before it skipped. -/
def readNat (cs : Text) : Option (Nat × Text) :=
  match skipSpaces cs with
  | '0' :: 'x' :: rest => readNatOf 16 rest
  | cs => readNatOf 10 cs

/-- A number below a bound. -/
def readBelow (bound : Nat) (cs : Text) : Option (Nat × Text) :=
  match readNat cs with
  | some (n, rest) => if n < bound then some (n, rest) else none
  | none => none

/-- One item of a list of words: a u64, or `<u64> x<count>` for that many of it (as R87 writes `[0 x8]`). R86
lets numbers be decimal or hexadecimal and does not say whether a count is one: it is read in decimal only (DESIGN CHOICE, log entry
15). -/
def readItem (cs : Text) : Option (List Word × Text) :=
  match readBelow (2 ^ 64) cs with
  | none => none
  | some (n, rest) =>
    match skipSpaces rest with
    | 'x' :: more =>
      match readNatOf 10 more with
      | some (count, rest') => if count ≤ 16 then some (List.replicate count (BitVec.ofNat 64 n), rest') else none
      | none => none
    | _ => some ([BitVec.ofNat 64 n], rest)

/-- Items with commas between them up to the closing bracket, at most as many as the fuel. -/
def readItems : Nat → Text → Option (List Word × Text)
  | 0, _ => none
  | fuel + 1, cs =>
    match readItem cs with
    | none => none
    | some (ws, rest) =>
      match skipSpaces rest with
      | ',' :: more =>
        match readItems fuel more with
        | some (ws', rest') => some (ws ++ ws', rest')
        | none => none
      | ']' :: rest' => some (ws, rest')
      | _ => none

/-- A bracketed list of exactly `n` words (R86). -/
def readWords (n : Nat) (cs : Text) : Option (Vector Word n × Text) :=
  match expect ['['] cs with
  | none => none
  | some rest =>
    match readItems n rest with
    | none => none
    | some (ws, rest') => if h : ws.toArray.size = n then some (⟨ws.toArray, h⟩, rest') else none

/-- Bytes in hexadecimal, two digits a byte, as far as digits go. A single digit left over is not taken. -/
def readHexBytes : Text → List Byte × Text
  | c :: d :: cs =>
    match digitValue c, digitValue d with
    | some x, some y =>
      let (bs, rest) := readHexBytes cs
      (BitVec.ofNat 8 (16 * x + y) :: bs, rest)
    | _, _ => ([], c :: d :: cs)
  | cs => ([], cs)

/-- `00×n`: n zero bytes (R86). The count is read in decimal only, like that of `readItem` (DESIGN CHOICE, log entry 15). -/
def readZeros (cs : Text) : Option (List Byte × Text) :=
  match expect ['0', '0', '×'] cs with
  | none => none
  | some rest =>
    match readNatOf 10 rest with
    | some (n, rest') => if n ≤ 128 then some (List.replicate n 0, rest') else none
    | none => none

/-- The pieces of `m=bytes:`, with `++` between them (R86), at most as many as the fuel. -/
def readPieces : Nat → Text → Option (List Byte × Text)
  | 0, _ => none
  | fuel + 1, cs =>
    let (bs, rest) := (readZeros cs).getD (readHexBytes (skipSpaces cs))
    match expect ['+', '+'] rest with
    | none => some (bs, rest)
    | some more =>
      match readPieces fuel more with
      | some (bs', rest') => some (bs ++ bs', rest')
      | none => none

/-- The bytes of a quoted ASCII text, up to the closing quote. -/
def readQuoted : Text → Option (List Byte × Text)
  | [] => none
  | c :: cs =>
    if c = '"' then some ([], cs)
    else if c.toNat < 128 then
      match readQuoted cs with
      | some (bs, rest) => some (BitVec.ofNat 8 c.toNat :: bs, rest)
      | none => none
    else none

/-- The message words of 128 bytes (30_encoding.md R74). -/
def messageOf (bytes : List Byte) : Vector Word 16 := Vector.ofFn fun k => le64 bytes (8 * k)

/-- The operand of `m=` in its three forms: 16 words, `bytes:` with 256 hex digits, or `ascii:` with the text's bytes followed by
zero bytes up to 128 (R86). -/
def readMessage (cs : Text) : Option (Vector Word 16 × Text) :=
  match expect "bytes:".toList cs with
  | some rest =>
    match readPieces 128 rest with
    | some (bs, rest') => if bs.length = 128 then some (messageOf bs, rest') else none
    | none => none
  | none =>
    match expect "ascii:".toList cs with
    | some ('"' :: rest) =>
      match readQuoted rest with
      | some (bs, rest') =>
        if bs.length ≤ 128 then some (messageOf (bs ++ List.replicate (128 - bs.length) 0), rest') else none
      | none => none
    | some _ => none
    | none => readWords 16 cs

/-- A named operand: `, name=` and then what the reader reads. The first operand of a line has no comma before it. -/
def operand {α : Type} (name : Text) (read : Text → Option (α × Text)) (cs : Text) : Option (α × Text) :=
  match expect name cs with
  | some rest => read rest
  | none => none

/-- Nothing but spaces is left. -/
def atEnd (cs : Text) : Bool := (skipSpaces cs).isEmpty

/-- The operands of `blake2f` (R86). -/
def readBlake2f (cs : Text) : Option Instr :=
  match operand "rounds=".toList (readBelow (2 ^ 32)) cs with
  | none => none
  | some (rounds, cs) =>
  match operand ", h=".toList (readWords 8) cs with
  | none => none
  | some (h, cs) =>
  match operand ", m=".toList readMessage cs with
  | none => none
  | some (m, cs) =>
  match operand ", t=".toList (readWords 2) cs with
  | none => none
  | some (t, cs) =>
  match operand ", f=".toList (readBelow 256) cs with
  | none => none
  | some (f, cs) =>
    if atEnd cs then
      some (.blake2f { rounds := BitVec.ofNat 32 rounds, h := h, m := m, t := t, f := BitVec.ofNat 8 f })
    else none

/-- The operands of `blake2b.block` (R87). -/
def readBlock (cs : Text) : Option Instr :=
  match operand "h=".toList (readWords 8) cs with
  | none => none
  | some (h, cs) =>
  match operand ", m=".toList readMessage cs with
  | none => none
  | some (m, cs) =>
  match operand ", t=".toList (readWords 2) cs with
  | none => none
  | some (t, cs) =>
  match operand ", last=".toList (readBelow 2) cs with
  | none => none
  | some (last, cs) => if atEnd cs then some (.blake2bBlock h m t (last == 1)) else none

/-- The operand of `blake2f.zero` (R87). -/
def readZero (cs : Text) : Option Instr :=
  match operand "rounds=".toList (readBelow (2 ^ 32)) cs with
  | some (rounds, cs) => if atEnd cs then some (.blake2fZero (BitVec.ofNat 32 rounds)) else none
  | none => none

/-- The operand of `blake2f.raw`: a hex byte string of even length, which may be empty (R86). -/
def readRaw (cs : Text) : Option Instr :=
  let (bytes, rest) := readHexBytes (skipSpaces cs)
  if atEnd rest then some (.submit bytes) else none

/-- A line without its comment, which `;` starts (R86). R86 does not speak of a `;` inside the quoted text of `m=ascii:`: there it is
read as text and starts no comment (DESIGN CHOICE, log entry 15). -/
def dropComment : Bool → Text → Text
  | _, [] => []
  | quoted, c :: cs =>
    if c = ';' ∧ !quoted then []
    else c :: dropComment (if c = '"' then !quoted else quoted) cs

/-- The instruction of a command line without a comment (R86, R87). The longer names are tried first. -/
def assembleCommand (cs : Text) : Option Instr :=
  match expect "blake2f.raw".toList cs with
  | some rest => readRaw rest
  | none =>
  match expect "blake2f.zero ".toList cs with
  | some rest => readZero rest
  | none =>
  match expect "blake2b.block ".toList cs with
  | some rest => readBlock rest
  | none =>
  match expect "blake2f ".toList cs with
  | some rest => readBlake2f rest
  | none =>
  match expect "consume".toList cs with
  | some rest => if atEnd rest then some .consume else none
  | none =>
  match expect "reset".toList cs with
  | some rest => if atEnd rest then some .reset else none
  | none => none

/-- The instruction of a line. -/
def assembleLine (cs : Text) : Option Instr := assembleCommand (dropComment false cs)

/-- What an instruction is as a command of the requester: a `blake2f` or `blake2f.raw` line, and a pseudo-instruction through its
expansion, is a SUBMIT (R86, R87). The internal phases are no commands. -/
def toHandshake (i : Instr) : Option Handshake :=
  match encode i with
  | .request bytes => some (.submit bytes)
  | .handshake c => some c
  | .phase _ => none

/-- The lines of a text. -/
def linesOf : Text → List Text
  | [] => [[]]
  | c :: cs =>
    match linesOf cs with
    | [] => [[c]]
    | l :: ls => if c = '\n' then [] :: l :: ls else (c :: l) :: ls

/-- The commands of a program text (R86), one a line; lines with nothing but a comment are skipped, and a line that is not read leaves
the whole text unread (DESIGN CHOICE, log entry 15). -/
def assembleProgram (cs : Text) : Option (List Handshake) :=
  (((linesOf cs).map (dropComment false)).filter fun l => !atEnd l).mapM fun l => (assembleCommand l).bind toHandshake

end Sys2Proof.Machine.Assembly
end

