-- ==== Sys2Proof/Machine/Instances.lean ====
section
/-! DEFINITION. Several instances of the block (60_exceptions.md R214; 00_scope.md R7, N_INSTANCES): each has its own copy of every
register and its own requester; the ROMs are constants. The instances step in any order, one at a time (log entry 16). -/

namespace Sys2Proof.Machine

/-- Any number of instances. -/
abbrev Instances := List State

/-- Instance `k` takes a step; the others keep their state. A step that faults or is refused stops that instance alone: its
state stays, and nothing else hears of it. An index with no instance steps nothing. -/
def Instances.stepAt (sys : Instances) (k : Nat) : Instances :=
  sys.modify k fun s =>
    match step s with
    | .next s' => s'
    | .fault _ => s
    | .refused _ => s

end Sys2Proof.Machine
end

