-- ==== Sys2Proof/Machine/Reference.lean ====
section
/-! DEFINITION. BLAKE2F as a function of the request (40_transaction.md R100, R110): what the block computes, written without
its sequencer, and the scalar form of the round (42_mixer.md R159). No meaning uses these; statements compare the machine
with them. -/

namespace Sys2Proof.Machine.Reference

/-- ROUND (42_mixer.md R158). -/
def round (m : Vector Word 16) (i : BitVec 32) (v : Vector Word 16) : Vector Word 16 :=
  undiagValue (g2dValue m i (g1dValue m i (diagValue (g2cValue m i (g1cValue m i v)))))

/-- V after `n` rounds, with indices 0 to n − 1 (40_transaction.md R100, R105). -/
def rounds (m : Vector Word 16) : Nat → Vector Word 16 → Vector Word 16
  | 0, v => v
  | n + 1, v => round m (BitVec.ofNat 32 n) (rounds m n v)

/-- V when FIN reads it (40_transaction.md R100). -/
def mixed (p : Payload) : Vector Word 16 :=
  rounds p.m p.rounds.toNat (initValue p.h p.t (finalFlag p.f))

/-- The updated chaining state, HOUT (40_transaction.md R100). -/
def compress (p : Payload) : Vector Word 8 := finValue p.h (mixed p)

/-- The response, a function of the request and STRICT_FINAL_FLAG alone (40_transaction.md R100, R110). -/
def response (strict : Bool) (bytes : List Byte) : Response :=
  match decodePayload bytes with
  | none => { status := Status.invalidInputLength, out := none }
  | some p =>
    if strict && rejectsFinalByte p.f then { status := Status.invalidFinalFlag, out := none }
    else { status := Status.ok, out := some (serValue (compress p)) }

/-- The number of sequencer steps from SUBMIT to DONE: 1 when CHK raises an error, else `5 + 6 · ROUNDS` (40_transaction.md
R109). -/
def steps (strict : Bool) (bytes : List Byte) : Nat :=
  match decodePayload bytes with
  | none => 1
  | some p => if strict && rejectsFinalByte p.f then 1 else 5 + 6 * p.rounds.toNat

/-! ### The scalar form (42_mixer.md R159) -/

/-- The scalar G on four places of V, with its two message words: G1lane, then G2lane, in place. -/
def scalarG (v : Vector Word 16) (a b c d : Fin 16) (x y : Word) : Vector Word 16 :=
  let q := g2Lane (g1Lane { a := v[a], b := v[b], c := v[c], d := v[d] } x) y
  (((v.set a q.a).set b q.b).set c q.c).set d q.d

/-- The places of the eight calls: four columns, then four diagonals. -/
def scalarPlaces : Vector (Fin 16 × Fin 16 × Fin 16 × Fin 16) 8 :=
  #v[(0, 4, 8, 12), (1, 5, 9, 13), (2, 6, 10, 14), (3, 7, 11, 15),
     (0, 5, 10, 15), (1, 6, 11, 12), (2, 7, 8, 13), (3, 4, 9, 14)]

/-- Call `k` of the round, with `M[S[2k]]` and `M[S[2k + 1]]`. -/
def scalarCall (m : Vector Word 16) (i : BitVec 32) (v : Vector Word 16) (k : Fin 8) : Vector Word 16 :=
  let s := Rom.sigmaRow i
  let q := scalarPlaces[k]
  scalarG v q.1 q.2.1 q.2.2.1 q.2.2.2 m[s[2 * k.val]] m[s[2 * k.val + 1]]

/-- The standard scalar round: eight calls in order. -/
def scalarRound (m : Vector Word 16) (i : BitVec 32) (v : Vector Word 16) : Vector Word 16 :=
  [0, 1, 2, 3, 4, 5, 6, 7].foldl (scalarCall m i) v

/-- One column of a half-mix, in place (42_mixer.md R151: "for j in 0..3"). -/
def mixColumnAt (f : Column → Word → Column) (x : Vector Word 4) (v : Vector Word 16) (j : Fin 4) : Vector Word 16 :=
  let q := f (column v j) x[j]
  (((v.set j.val q.a).set (4 + j.val) q.b).set (8 + j.val) q.c).set (12 + j.val) q.d

end Sys2Proof.Machine.Reference
end

