-- ==== Sys2Proof/Safety.lean ====
section
/-! DEFINITION. What a safe run is: the states the block can be in while it serves requests, written register by register with the
values the spec gives them (10_state.md R37 to R39; 70_reset_and_hazards.md R246), and the turns in which the other agents
leave the block alone. -/

namespace Sys2Proof.Machine

/-! ### The other agents -/

/-- While a transaction runs, requester and environment do nothing: there is no turn left, or the requester holds a command
(40_transaction.md R102). -/
def holding : List Turn → Bool
  | [] => true
  | .pass :: _ => false
  | .setStrictFinalFlag _ :: _ => false
  | .command .reset :: _ => false
  | .command .consume :: _ => true
  | .command (.submit _) :: _ => true

/-- A turn that a block which is not BUSY lets wait while others go first: a SUBMIT in DONE, a CONSUME in IDLE (40_transaction.md R101,
R102, R108; log entry 5). -/
def State.heldTurn (s : State) : Turn → Bool
  | .command (.submit _) => s.fsm = Fsm.done
  | .command .consume => s.fsm = Fsm.idle
  | .command .reset => false
  | .pass => false
  | .setStrictFinalFlag _ => false

/-! ### Reserved values -/

/-- No register holds a value that the spec reserves (10_state.md R21, R28; 30_encoding.md R84). -/
abbrev State.Legal (s : State) : Prop :=
  s.fsm ≠ Fsm.reserved ∧ s.status ≠ some Status.reserved ∧ ∀ code ∈ s.phase, code ≤ Phase.ser

/-! ### What the registers hold -/

/-- The accepted request is latched (10_state.md R22, R23). -/
def State.HoldsRequest (s : State) (bytes : List Byte) : Prop :=
  s.inLen = some bytes.length ∧ s.inBuf = Memory.writeAll [] 0 (bytes.take Config.payloadLen)

/-- No decoded field holds a value (40_transaction.md R107). -/
def State.NoFields (s : State) : Prop :=
  s.rounds = none ∧ s.h = none ∧ s.m = none ∧ s.t = none ∧ s.f = none

/-- The decoded fields are those of a payload (10_state.md R24). -/
def State.HoldsFields (s : State) (p : Payload) : Prop :=
  s.rounds = some p.rounds ∧ s.h = some p.h ∧ s.m = some p.m ∧ s.t = some p.t ∧ s.f = some (finalFlag p.f)

/-- Neither V, I nor HOUT holds a value. -/
def State.NoWork (s : State) : Prop := s.v = none ∧ s.i = none ∧ s.hout = none

/-- CHK admits a final byte (41_decoder.md R121). -/
def admits (strict : Bool) (byte : Byte) : Bool := !(strict && rejectsFinalByte byte)

/-- V when the phase `code` of round `n` begins (42_mixer.md R158), for the six phases of a round. -/
def vectorBefore (p : Payload) (n : Nat) (code : BitVec 4) : Option (Vector Word 16) :=
  let i := BitVec.ofNat 32 n
  let v0 := Reference.rounds p.m n (initValue p.h p.t (finalFlag p.f))
  let v1 := g1cValue p.m i v0
  let v2 := g2cValue p.m i v1
  let v3 := diagValue v2
  let v4 := g1dValue p.m i v3
  let v5 := g2dValue p.m i v4
  match code.toNat with
  | 0x3 => some v0
  | 0x4 => some v1
  | 0x5 => some v2
  | 0x6 => some v3
  | 0x7 => some v4
  | 0x8 => some v5
  | _ => none

/-- I when no further round follows: none ran, or the last one's index (10_state.md R27). -/
def lastRound (p : Payload) : Option (BitVec 32) := if p.rounds = 0 then none else some (p.rounds - 1)

/-! ### The invariant -/

/-- A transaction is in flight, about to execute the phase PHASE names (10_state.md R26, R37). -/
def State.InFlight (s : State) (bytes : List Byte) : Prop :=
  s.HoldsRequest bytes ∧ s.outBuf = [] ∧ s.status = none ∧
    ((s.phase = some Phase.chk ∧ s.NoFields ∧ s.NoWork) ∨
      ∃ p, decodePayload bytes = some p ∧ admits s.strict p.f = true ∧
        ((s.phase = some Phase.dec ∧ s.NoFields ∧ s.NoWork) ∨
          (s.HoldsFields p ∧
            ((s.phase = some Phase.init ∧ s.NoWork) ∨
              (s.hout = none ∧ ∃ n code, n < p.rounds.toNat ∧ s.i = some (BitVec.ofNat 32 n) ∧ s.phase = some code ∧
                s.v.isSome ∧ s.v = vectorBefore p n code) ∨
              (s.phase = some Phase.fin ∧ s.i = lastRound p ∧ s.v = some (Reference.mixed p) ∧ s.hout = none) ∨
              (s.phase = some Phase.ser ∧ s.i = lastRound p ∧ s.v = some (Reference.mixed p) ∧
                s.hout = some (Reference.compress p))))))

/-- A response is ready: an error with nothing decoded (40_transaction.md R107), or OK with OUT (R106). -/
def State.Answered (s : State) (bytes : List Byte) : Prop :=
  s.HoldsRequest bytes ∧
    ((s.outBuf = [] ∧ s.phase = some Phase.chk ∧ s.NoFields ∧ s.NoWork ∧ s.status ≠ some Status.ok ∧
        s.status = some (Reference.response s.strict bytes).status) ∨
      ∃ p, decodePayload bytes = some p ∧ admits s.strict p.f = true ∧ s.HoldsFields p ∧ s.phase = some Phase.ser ∧
        s.i = lastRound p ∧ s.v = some (Reference.mixed p) ∧ s.hout = some (Reference.compress p) ∧
        s.outBuf = Memory.writeAll [] 0 (serValue (Reference.compress p)) ∧ s.status = some Status.ok)

/-- The states of a block that serves requests: IDLE with every per-transaction register holding no value, BUSY with a transaction
in flight, or DONE with its response (10_state.md R21, R39). -/
def State.Inv (s : State) : Prop :=
  (s.fsm = Fsm.idle ∧ s.endTransaction = s) ∨
    (s.fsm = Fsm.busy ∧ ∃ bytes, s.InFlight bytes) ∨
    (s.fsm = Fsm.done ∧ ∃ bytes, s.Answered bytes)

end Sys2Proof.Machine
end

