-- ==== Sys2Proof/Certificates/Slice0/Obligations.lean ====
section
/-! DEFINITION. The statements for the provers, from the rules of spec/. A value or behaviour the model chose is named with its log
entry in the docstring of the statement that rests on it. -/

open Sys2Proof Sys2Proof.Machine

/-! ### Encoding -/

/-- Words written out from the tables: the eleven phase codes of 30_encoding.md R79, two reserved codes (R84), and a payload of
R71 with `rounds` = 12 big-endian in its first four bytes and a final byte of 1. That a word of at most eight bits is read as a phase
code, and a longer one as a request outside strict mode (so the payload is a BLAKE2F, not a BLAKE2F.strict), is the model's choice (log
entry 9). -/
def Obligations.TableWordsDecodeToTheirRows : Prop :=
  decodeTableWord 8 0x0 = some .phaseChk ∧ decodeTableWord 8 0x1 = some .phaseDec ∧
  decodeTableWord 8 0x2 = some .phaseInit ∧ decodeTableWord 8 0x3 = some .phaseG1c ∧
  decodeTableWord 8 0x4 = some .phaseG2c ∧ decodeTableWord 8 0x5 = some .phaseDiag ∧
  decodeTableWord 8 0x6 = some .phaseG1d ∧ decodeTableWord 8 0x7 = some .phaseG2d ∧
  decodeTableWord 8 0x8 = some .phaseUndiag ∧ decodeTableWord 8 0x9 = some .phaseFin ∧
  decodeTableWord 8 0xA = some .phaseSer ∧ decodeTableWord 8 0xB = some (.phaseReserved 0xB) ∧
  decodeTableWord 8 0xF = some (.phaseReserved 0xF) ∧
  decodeTableWord 1704
    0x1000000000000000000000000000000000000000000000000000000000000000000000000000000000000000000000000000000000000000000000000000000000000000000000000000000000000000000000000000000000000000000000000000000000000000000000000000000000000000000000000000000000000000000000000000000000000000000000000000000000000000000000000000000000000000000000000000000000000000000000000000000000000000000000000000000000000000000000000000000000C000000 =
    some (.blake2f
      { rounds := 12, h := Vector.replicate 8 0, m := Vector.replicate 16 0, t := Vector.replicate 2 0, f := 1 })

/-- Decoding the encoding of a well-formed instruction gives it back, every operand at every value; a pseudo-instruction gives the
command it expands to (30_encoding.md R71, R79 to R81, R87). -/
def Obligations.DecodingAnEncodingGivesTheInstruction : Prop :=
  ∀ i : Instr, Sys2Proof.Laws.RoundTrip.Statement i

/-- Every request, of any length and in both modes, is the encoding of the row it decodes to: the payload's fields cover its bytes
exactly once, and no byte of an illegal request is dropped (30_encoding.md R71, R80, R81, R85). -/
def Obligations.EncodingADecodedRequestGivesItsBytes : Prop :=
  ∀ (strict : Bool) (bytes : List Byte), encode (decodeRequest strict bytes) = .request bytes

/-- Which row a request is: by its length, and in strict mode by its final byte (30_encoding.md R80, R81). -/
def Obligations.RequestsDecodeByLengthAndFinalByte : Prop :=
  ∀ (strict : Bool) (bytes : List Byte),
    (bytes.length ≠ 213 → decodeRequest strict bytes = .invalidInputLength bytes) ∧
    (bytes.length = 213 →
      ∃ p, encodePayload p = bytes ∧ bytes[212]? = some p.f ∧
        decodeRequest strict bytes =
          if strict = false then .blake2f p
          else if p.f = 0x00 ∨ p.f = 0x01 then .blake2fStrict p
          else .invalidFinalFlag p)

/-- Printing a request and assembling the line gives the SUBMIT of the same bytes, in both modes and for illegal requests too
(30_encoding.md R86, R88). -/
def Obligations.PrintedRequestsAssembleToTheirBytes : Prop :=
  ∀ (strict : Bool) (bytes : List Byte),
    (Assembly.assembleLine (Assembly.printRequest strict bytes)).bind Assembly.toHandshake = some (.submit bytes)

/-! ### Word operators -/

/-- ADD64 (42_mixer.md R140). -/
def Obligations.AdditionWrapsModulo64Bits : Prop :=
  ∀ a b x : Word, (add64 a b).toNat = (a.toNat + b.toNat) % 2 ^ 64 ∧
    (add64 (add64 a b) x).toNat = (a.toNat + b.toNat + x.toNat) % 2 ^ 64

/-- ROTR64 (42_mixer.md R142): bit `k` of the result is bit `(k + n) mod 64` of `x`. -/
def Obligations.RotationMovesEveryBit : Prop :=
  ∀ (x : Word) (n : Nat), 1 ≤ n → n ≤ 63 → ∀ k, k < 64 → (rotr64 x n).getLsbD k = x.getLsbD ((k + n) % 64)

/-- G1lane and G2lane, line by line, with their rotation amounts (42_mixer.md R150, R152). -/
def Obligations.LaneFunctionsAddXorAndRotate : Prop :=
  ∀ a b c d x : Word,
    (let a' := a + b + x
     let d' := (d ^^^ a').rotateRight 32
     let c' := c + d'
     let b' := (b ^^^ c').rotateRight 24
     g1Lane { a := a, b := b, c := c, d := d } x = { a := a', b := b', c := c', d := d' }) ∧
    (let a' := a + b + x
     let d' := (d ^^^ a').rotateRight 16
     let c' := c + d'
     let b' := (b ^^^ c').rotateRight 63
     g2Lane { a := a, b := b, c := c, d := d } x = { a := a', b := b', c := c', d := d' })

/-! ### Requester and environment -/

/-- SUBMIT (40_transaction.md R101): enabled in IDLE it latches the length and the first 213 bytes, and changes nothing but INLEN, IN,
FSM and PHASE; with FSM ≠ IDLE it is not enabled (R102). That a SUBMIT which is not enabled is answered by a next state with nothing
changed is the model's choice (log entry 5). -/
def Obligations.SubmitLatchesTheRequest : Prop :=
  ∀ (s : State) (bytes : List Byte),
    (s.fsm = Fsm.idle →
      ∃ t, exec (.submit bytes) s = .next t ∧
        t = { s with inLen := some bytes.length, inBuf := t.inBuf, fsm := Fsm.busy, phase := some Phase.chk } ∧
        (∀ k, k < min bytes.length 213 → t.inBuf.read k = bytes[k]?) ∧
        (∀ k, ¬k < min bytes.length 213 → t.inBuf.read k = s.inBuf.read k)) ∧
    (s.fsm = Fsm.busy ∨ s.fsm = Fsm.done → exec (.submit bytes) s = .next s)

/-- CONSUME (40_transaction.md R108): enabled in DONE it delivers STATUS, with OUT's 64 bytes when STATUS = OK and with no byte
otherwise, and returns the block to IDLE with every per-transaction register holding no value. In IDLE and BUSY it is not
enabled. That a CONSUME which is not enabled is answered by a next state with nothing changed (log entry 5), and that what is delivered
is kept in a list (log entry 6), is the model's choice. -/
def Obligations.ConsumeDeliversTheResponse : Prop :=
  ∀ s : State,
    (∀ out : List Byte, s.fsm = Fsm.done → s.status = some Status.ok → out.length = 64 →
      (∀ k, k < 64 → s.outBuf.read k = out[k]?) →
      exec .consume s =
        .next { s.endTransaction with delivered := s.delivered ++ [{ status := 0, out := some out }] }) ∧
    (∀ c : BitVec 2, s.fsm = Fsm.done → s.status = some c → c = 1 ∨ c = 2 →
      exec .consume s = .next { s.endTransaction with delivered := s.delivered ++ [{ status := c, out := none }] }) ∧
    (s.fsm = Fsm.idle ∨ s.fsm = Fsm.busy → exec .consume s = .next s)

/-- RESET (70_reset_and_hazards.md R240), in every state: FSM = IDLE, no per-transaction register holds a value, STRICT_FINAL_FLAG is
unchanged and no response is produced. The two fields of the other agents stay too, which is the model's choice (log entries 4
and 6). -/
def Obligations.ResetEndsAnyTransaction : Prop :=
  ∀ s : State,
    exec .reset s =
      .next
        { fsm := 0, phase := none, i := none, inBuf := [], inLen := none, rounds := none, h := none, m := none, t := none,
          f := none, v := none, hout := none, outBuf := [], status := none, strict := s.strict, agenda := s.agenda,
          delivered := s.delivered }

/-- The state after reset (10_state.md R38), register by register; STRICT_FINAL_FLAG has the default of 00_scope.md R7. -/
def Obligations.ResetStateHoldsTheResetValues : Prop :=
  State.reset.fsm = 0 ∧ State.reset.phase = none ∧ State.reset.i = none ∧ (∀ k, State.reset.inBuf.read k = none) ∧
    State.reset.inLen = none ∧ State.reset.rounds = none ∧ State.reset.h = none ∧ State.reset.m = none ∧
    State.reset.t = none ∧ State.reset.f = none ∧ State.reset.v = none ∧ State.reset.hout = none ∧
    (∀ k, State.reset.outBuf.read k = none) ∧ State.reset.status = none ∧ State.reset.strict = false

/-- STRICT_FINAL_FLAG is static (70_reset_and_hazards.md R243): the environment's turn that changes it is refused while FSM ≠ IDLE, and in
IDLE sets it and nothing else. That the environment is a turn of the agenda, which goes before commands that a block not BUSY holds, is
the model's choice (log entries 3, 4 and 5), and so is that a reserved register value comes before it (log entry 12). -/
def Obligations.StrictFlagChangesOnlyWhenIdle : Prop :=
  ∀ (s : State) (value : Bool) (held rest : List Turn),
    s.agenda = held ++ .setStrictFinalFlag value :: rest → (∀ turn ∈ held, s.heldTurn turn = true) → s.Legal →
    (s.fsm ≠ Fsm.idle → s.strict ≠ value → step s = .refused .strictFlagChangedInFlight) ∧
    (s.fsm = Fsm.idle → step s = .next { s with strict := value, agenda := held ++ rest })

/-! ### The decoder -/

/-- CHK, the length check (41_decoder.md R120): any length but 213 ends the transaction with STATUS = 1, whatever IN holds and in both
modes, and nothing but FSM and STATUS is written. -/
def Obligations.ChkRejectsEveryOtherLength : Prop :=
  ∀ (s : State) (len : Nat), s.inLen = some len → len ≠ 213 →
    exec .phaseChk s = .next { s with fsm := Fsm.done, status := some 1 }

/-- CHK, the final-flag check (41_decoder.md R121): in strict mode a final byte other than 0x00 and 0x01 ends the transaction with
STATUS = 2, and nothing but FSM and STATUS is written; the bytes 0x00 and 0x01, and outside strict mode every byte, pass to DEC. -/
def Obligations.ChkRejectsFinalBytesInStrictMode : Prop :=
  ∀ (s : State) (byte : Byte), s.inLen = some 213 → s.inBuf.read 212 = some byte →
    (s.strict = true → byte ≠ 0x00 → byte ≠ 0x01 →
      exec .phaseChk s = .next { s with fsm := Fsm.done, status := some 2 }) ∧
    (s.strict = true → byte = 0x00 ∨ byte = 0x01 → exec .phaseChk s = .next { s with phase := some 0x1 }) ∧
    (s.strict = false → exec .phaseChk s = .next { s with phase := some 0x1 })

/-- CHK, the outcome (41_decoder.md R122): when neither check raises, PHASE ← DEC and no other register is written. -/
def Obligations.ChkPassesLegalRequestsToDec : Prop :=
  ∀ s : State, s.inLen = some 213 →
    (s.strict = true → ∃ byte, s.inBuf.read 212 = some byte ∧ (byte = 0x00 ∨ byte = 0x01)) →
    exec .phaseChk s = .next { s with phase := some 0x1 }

/-- DEC (41_decoder.md R123 to R128): with IN holding 213 bytes, every field gets the number its bytes give, `rounds` big-endian and
the words little-endian, F is whether the final byte is not 0, PHASE ← INIT, and nothing else is written. -/
def Obligations.DecAssemblesEveryField : Prop :=
  ∀ (s : State) (B : Nat → Byte), (∀ k, k < 213 → s.inBuf.read k = some (B k)) →
    ∃ (rounds : BitVec 32) (h : Vector Word 8) (m : Vector Word 16) (t : Vector Word 2),
      exec .phaseDec s =
        .next
          { s with
            rounds := some rounds, h := some h, m := some m, t := some t, f := some (decide (B 212 ≠ 0)),
            phase := some 0x2 } ∧
      rounds.toNat = (B 0).toNat * 2 ^ 24 + (B 1).toNat * 2 ^ 16 + (B 2).toNat * 2 ^ 8 + (B 3).toNat ∧
      (∀ k : Fin 8, h[k].toNat = ∑ j ∈ Finset.range 8, (B (4 + 8 * k + j)).toNat * 2 ^ (8 * j)) ∧
      (∀ k : Fin 16, m[k].toNat = ∑ j ∈ Finset.range 8, (B (68 + 8 * k + j)).toNat * 2 ^ (8 * j)) ∧
      (∀ k : Fin 2, t[k].toNat = ∑ j ∈ Finset.range 8, (B (196 + 8 * k + j)).toNat * 2 ^ (8 * j))

/-- A short request is never given a decoded value (41_decoder.md R130; 60_exceptions.md R217): DEC stops at the first byte of IN that
holds no value. -/
def Obligations.DecFaultsOnAMissingByte : Prop :=
  ∀ (s : State) (k : Nat), k < 213 → s.inBuf.read k = none → (∀ j, j < k → (s.inBuf.read j).isSome) →
    exec .phaseDec s = .fault (.noByte .input k)

/-! ### The mixer -/

/-- INIT (42_mixer.md R148) and its successor (40_transaction.md R104), with the IV ROM's words by name: V is written whole, and nothing
but V, I (when ROUNDS > 0) and PHASE. -/
def Obligations.InitSetsTheWorkingVector : Prop :=
  ∀ (s : State) (h : Vector Word 8) (t : Vector Word 2) (f : Bool) (rounds : BitVec 32),
    s.h = some h → s.t = some t → s.f = some f → s.rounds = some rounds →
    ∃ v : Vector Word 16,
      (exec .phaseInit s =
        if rounds = 0 then .next { s with v := some v, phase := some 0x9 }
        else .next { s with v := some v, i := some 0, phase := some 0x3 }) ∧
      (∀ k : Fin 8, v[k.val] = h[k]) ∧ (∀ k : Fin 4, v[8 + k.val] = Rom.iv[k.val]) ∧
      v[12] = Rom.iv[4] ^^^ t[0] ∧ v[13] = Rom.iv[5] ^^^ t[1] ∧
      v[14] = Rom.iv[6] ^^^ (if f then 0xFFFFFFFFFFFFFFFF else 0) ∧ v[15] = Rom.iv[7]

/-- The IV and SIGMA ROMs hold the tables of 42_mixer.md R146 and R147, which the spec supplies from general knowledge. -/
def Obligations.RomsHoldTheStandardTables : Prop :=
  Rom.iv.toList =
    [0x6a09e667f3bcc908, 0xbb67ae8584caa73b, 0x3c6ef372fe94f82b, 0xa54ff53a5f1d36f1,
     0x510e527fade682d1, 0x9b05688c2b3e6c1f, 0x1f83d9abfb41bd6b, 0x5be0cd19137e2179] ∧
  (∀ round : BitVec 32,
    (Rom.sigmaRow round).toList.map Fin.val =
      ([[0, 1, 2, 3, 4, 5, 6, 7, 8, 9, 10, 11, 12, 13, 14, 15],
        [14, 10, 4, 8, 9, 15, 13, 6, 1, 12, 0, 2, 11, 7, 5, 3],
        [11, 8, 12, 0, 5, 2, 15, 13, 10, 14, 3, 6, 7, 1, 9, 4],
        [7, 9, 3, 1, 13, 12, 11, 14, 2, 6, 5, 10, 4, 0, 15, 8],
        [9, 0, 5, 7, 2, 4, 10, 15, 14, 1, 11, 12, 6, 8, 3, 13],
        [2, 12, 6, 10, 0, 11, 8, 3, 4, 13, 7, 5, 15, 14, 1, 9],
        [12, 5, 1, 15, 14, 13, 4, 10, 0, 7, 6, 3, 9, 2, 8, 11],
        [13, 11, 7, 14, 12, 1, 3, 9, 5, 0, 15, 4, 8, 6, 2, 10],
        [6, 15, 14, 9, 11, 3, 0, 8, 12, 2, 13, 7, 1, 4, 10, 5],
        [10, 2, 8, 4, 7, 6, 1, 5, 15, 11, 9, 14, 3, 12, 13, 0]] : List (List Nat)).getD (round.toNat % 10) [])

/-- The G1 phases (42_mixer.md R151, R155): every column is the G1lane of its old words with its message word, and nothing but V and
PHASE is written. Which message word a column takes, M[S[2j]] or M[S[8+2j]] (R149), is the spec's own general knowledge, not in its
source (log entry 13). -/
def Obligations.G1PhasesMixEveryColumn : Prop :=
  ∀ (s : State) (v m : Vector Word 16) (i : BitVec 32), s.v = some v → s.m = some m → s.i = some i →
    (∃ w : Vector Word 16,
      exec .phaseG1c s = .next { s with v := some w, phase := some 0x4 } ∧
      ∀ (j : Nat) (hj : j < 4),
        ({ a := w[j], b := w[4 + j], c := w[8 + j], d := w[12 + j] } : Column) =
          g1Lane { a := v[j], b := v[4 + j], c := v[8 + j], d := v[12 + j] } m[(Rom.sigmaRow i)[2 * j]]) ∧
    (∃ w : Vector Word 16,
      exec .phaseG1d s = .next { s with v := some w, phase := some 0x7 } ∧
      ∀ (j : Nat) (hj : j < 4),
        ({ a := w[j], b := w[4 + j], c := w[8 + j], d := w[12 + j] } : Column) =
          g1Lane { a := v[j], b := v[4 + j], c := v[8 + j], d := v[12 + j] } m[(Rom.sigmaRow i)[8 + 2 * j]])

/-- The G2 phases (42_mixer.md R153, R156), likewise with G2lane; the pairing with M[S[2j+1]] and M[S[9+2j]] (R149) is the spec's own
general knowledge too (log entry 13). -/
def Obligations.G2PhasesMixEveryColumn : Prop :=
  ∀ (s : State) (v m : Vector Word 16) (i : BitVec 32), s.v = some v → s.m = some m → s.i = some i →
    (∃ w : Vector Word 16,
      exec .phaseG2c s = .next { s with v := some w, phase := some 0x5 } ∧
      ∀ (j : Nat) (hj : j < 4),
        ({ a := w[j], b := w[4 + j], c := w[8 + j], d := w[12 + j] } : Column) =
          g2Lane { a := v[j], b := v[4 + j], c := v[8 + j], d := v[12 + j] } m[(Rom.sigmaRow i)[2 * j + 1]]) ∧
    (∃ w : Vector Word 16,
      exec .phaseG2d s = .next { s with v := some w, phase := some 0x8 } ∧
      ∀ (j : Nat) (hj : j < 4),
        ({ a := w[j], b := w[4 + j], c := w[8 + j], d := w[12 + j] } : Column) =
          g2Lane { a := v[j], b := v[4 + j], c := v[8 + j], d := v[12 + j] } m[(Rom.sigmaRow i)[9 + 2 * j]])

/-- DIAG (42_mixer.md R154; the directions are the spec's, from general knowledge): the lanes of rows 2 to 4 move, row 1 stays, and
nothing but V and PHASE is written. -/
def Obligations.DiagMovesTheLanes : Prop :=
  ∀ (s : State) (v : Vector Word 16), s.v = some v →
    exec .phaseDiag s =
      .next
        { s with
          v := some #v[v[0], v[1], v[2], v[3], v[5], v[6], v[7], v[4],
                       v[10], v[11], v[8], v[9], v[15], v[12], v[13], v[14]]
          phase := some 0x6 }

/-- UNDIAG (42_mixer.md R157; directions as for DIAG) and its successor (40_transaction.md R105): the next round exactly when
`I + 1 < ROUNDS`, with no wrap-around, else FIN; nothing but V, I (when a round follows) and PHASE is written. -/
def Obligations.UndiagMovesTheLanesBack : Prop :=
  ∀ (s : State) (v : Vector Word 16) (i rounds : BitVec 32), s.v = some v → s.i = some i → s.rounds = some rounds →
    ∃ w : Vector Word 16,
      w = #v[v[0], v[1], v[2], v[3], v[7], v[4], v[5], v[6],
             v[10], v[11], v[8], v[9], v[13], v[14], v[15], v[12]] ∧
      (i.toNat + 1 < rounds.toNat →
        ∃ j : BitVec 32, j.toNat = i.toNat + 1 ∧
          exec .phaseUndiag s = .next { s with v := some w, i := some j, phase := some 0x3 }) ∧
      (¬i.toNat + 1 < rounds.toNat → exec .phaseUndiag s = .next { s with v := some w, phase := some 0x9 })

/-- UNDIAG after DIAG is the identity, and so are four DIAGs (42_mixer.md R154, R157). -/
def Obligations.UndiagUndoesDiag : Prop :=
  ∀ v : Vector Word 16,
    undiagValue (diagValue v) = v ∧ diagValue (undiagValue v) = v ∧ diagValue (diagValue (diagValue (diagValue v))) = v

/-- A half-mix does not depend on the order in which its columns are computed (20_memory.md R60, 70_reset_and_hazards.md R247):
updating V in place, column by column in any order, gives the same V. -/
def Obligations.ColumnsMixInAnyOrder : Prop :=
  ∀ (f : Column → Word → Column) (x : Vector Word 4) (v : Vector Word 16) (order : List (Fin 4)),
    order.Perm [0, 1, 2, 3] → order.foldl (Reference.mixColumnAt f x) v = mixColumns f x v

/-- ROUND equals the standard scalar round, eight calls of the whole G in place (42_mixer.md R159). -/
def Obligations.RoundEqualsTheScalarRound : Prop :=
  ∀ (m : Vector Word 16) (i : BitVec 32) (v : Vector Word 16), Reference.round m i v = Reference.scalarRound m i v

/-- The schedule (42_mixer.md R149, R161): in every round each message word enters exactly once, over the four G-phases and four
lanes, and round `I` takes the same words as round `I − 10`. -/
def Obligations.ScheduleUsesEachWordOncePerRound : Prop :=
  ∀ i : BitVec 32,
    (∀ w : Fin 16, ∃! pos : Fin 4 × Fin 4,
      (Rom.sigmaRow i)[(#v[Select.g1c, Select.g2c, Select.g1d, Select.g2d][pos.1])[pos.2]] = w) ∧
    (10 ≤ i.toNat → Rom.sigmaRow i = Rom.sigmaRow (i - 10))

/-! ### The serializer -/

/-- FIN (43_serializer.md R180): nothing but HOUT and PHASE is written. -/
def Obligations.FinXorsBothHalvesIntoH : Prop :=
  ∀ (s : State) (h : Vector Word 8) (v : Vector Word 16), s.h = some h → s.v = some v →
    ∃ hout : Vector Word 8,
      exec .phaseFin s = .next { s with hout := some hout, phase := some 0xA } ∧
      ∀ (k : Nat) (hk : k < 8), hout[k] = h[k] ^^^ v[k] ^^^ v[k + 8]

/-- SER (43_serializer.md R181, R182): OUT gets the 64 bytes of HOUT, each word least significant byte first, and the transaction is
DONE with STATUS = OK; nothing else is written, and no byte beyond OUT's 64. -/
def Obligations.SerWritesLittleEndianWords : Prop :=
  ∀ (s : State) (hout : Vector Word 8), s.hout = some hout →
    ∃ out : Memory,
      exec .phaseSer s = .next { s with outBuf := out, fsm := Fsm.done, status := some 0 } ∧
      (∀ (k j : Nat) (hk : k < 8), j < 8 → out.read (8 * k + j) = some (hout[k].extractLsb' (8 * j) 8)) ∧
      (∀ x, 64 ≤ x → out.read x = s.outBuf.read x)

/-- A reserved phase code stops the machine: it neither stalls nor skips (30_encoding.md R84; 60_exceptions.md R217). A step from a state
whose PHASE holds one faults, in BUSY or not and whatever comes next. That the fault is PHASE's only where FSM and STATUS hold no
reserved value, and that not even RESET goes before it, is the model's choice (log entry 12). -/
def Obligations.ReservedPhaseCodesStop : Prop :=
  (∀ (code : BitVec 4) (s : State), exec (.phaseReserved code) s = .fault (.reservedPhase code)) ∧
  (∀ (s : State) (code : BitVec 4), s.phase = some code → 0xB ≤ code →
    (∃ r, step s = .fault r) ∧ (s.fsm ≠ 3 → s.status ≠ some 3 → step s = .fault (.reservedPhase code)))

/-- Reading a register or a byte that holds no value is a fault, in every phase that reads one, in CONSUME, and in the sequencer's own
read of PHASE (00_scope.md R12, 60_exceptions.md R217, 10_state.md R26). -/
def Obligations.NoValueIsNeverRead : Prop :=
  ∀ s : State,
    (s.inLen = none → exec .phaseChk s = .fault (.noValue .INLEN)) ∧
    (s.h = none ∨ s.t = none ∨ s.f = none ∨ s.rounds = none → ∃ r, exec .phaseInit s = .fault (.noValue r)) ∧
    (s.v = none ∨ s.m = none ∨ s.i = none →
      ∀ i ∈ [Instr.phaseG1c, .phaseG2c, .phaseG1d, .phaseG2d], ∃ r, exec i s = .fault (.noValue r)) ∧
    (s.v = none → exec .phaseDiag s = .fault (.noValue .V)) ∧
    (s.v = none ∨ s.i = none ∨ s.rounds = none → ∃ r, exec .phaseUndiag s = .fault (.noValue r)) ∧
    (s.h = none ∨ s.v = none → ∃ r, exec .phaseFin s = .fault (.noValue r)) ∧
    (s.hout = none → exec .phaseSer s = .fault (.noValue .HOUT)) ∧
    (s.fsm = Fsm.done → s.status = none → exec .consume s = .fault (.noValue .STATUS)) ∧
    (s.inLen = some 213 → s.strict = true → s.inBuf.read 212 = none → exec .phaseChk s = .fault (.noByte .input 212)) ∧
    (∀ k, s.fsm = Fsm.done → s.status = some Status.ok → k < 64 → s.outBuf.read k = none →
      (∀ j, j < k → (s.outBuf.read j).isSome) → exec .consume s = .fault (.noByte .output k)) ∧
    (s.fsm = Fsm.busy → s.status ≠ some 3 → s.phase = none → holding s.agenda = true → step s = .fault (.noValue .PHASE))

/-! ### The command, end to end -/

/-- BLAKE2F, in both its rows (40_transaction.md R100): from IDLE, where no per-transaction register holds a value (10_state.md R39),
and in strict mode for a legal final byte, the command completes; STATUS is OK, OUT holds the compression of its fields, every
register holds what the transaction leaves in it, and STRICT_FINAL_FLAG, agenda and delivered responses are untouched. The model's
choice is that a row is its whole transaction (log entry 7), and that the other agents' agenda and delivered responses are fields that
it leaves alone (log entries 4 and 6); that PHASE and I stay as SER found them is inferred from 10_state.md R37 (log entry 11). -/
def Obligations.Blake2fCompressesAndSerializes : Prop :=
  ∀ (s : State) (p : Payload), s.endTransaction = s → (s.strict = true → p.f = 0x00 ∨ p.f = 0x01) →
    ∀ i ∈ [Instr.blake2f p, .blake2fStrict p],
      ∃ t, exec i s = .next t ∧ t.fsm = Fsm.done ∧ t.status = some 0 ∧
        (∀ k, t.outBuf.read k = (serValue (Reference.compress p))[k]?) ∧
        t.hout = some (Reference.compress p) ∧ t.v = some (Reference.mixed p) ∧
        t.phase = some Phase.ser ∧ t.i = (if p.rounds = 0 then none else some (p.rounds - 1)) ∧ t.HoldsFields p ∧
        t.inLen = some 213 ∧
        (∀ k, t.inBuf.read k = (encodePayload p)[k]?) ∧
        t.strict = s.strict ∧ t.agenda = s.agenda ∧ t.delivered = s.delivered

/-- The two error responses (60_exceptions.md R202, R203; 40_transaction.md R100, R101, R107): from every IDLE state such a request is DONE
with its status code, and it has written no register other than IN, INLEN, PHASE, FSM and STATUS. That its row runs SUBMIT and CHK to
DONE is the model's choice (log entry 7); that PHASE stays CHK is inferred (log entry 11). -/
def Obligations.IllegalRequestsGetTheirErrorResponse : Prop :=
  ∀ s : State, s.fsm = Fsm.idle →
    (∀ bytes : List Byte, bytes.length ≠ 213 →
      ∃ t, exec (.invalidInputLength bytes) s = .next t ∧
        t = { s with
              fsm := Fsm.done, status := some 1, inLen := some bytes.length, inBuf := t.inBuf, phase := some Phase.chk } ∧
        (∀ k, k < min bytes.length 213 → t.inBuf.read k = bytes[k]?) ∧
        (∀ k, ¬k < min bytes.length 213 → t.inBuf.read k = s.inBuf.read k)) ∧
    (∀ p : Payload, s.strict = true → p.f ≠ 0x00 → p.f ≠ 0x01 →
      ∃ t, exec (.invalidFinalFlag p) s = .next t ∧
        t = { s with fsm := Fsm.done, status := some 2, inLen := some 213, inBuf := t.inBuf, phase := some Phase.chk } ∧
        (∀ k, k < 213 → t.inBuf.read k = (encodePayload p)[k]?) ∧
        (∀ k, 213 ≤ k → t.inBuf.read k = s.inBuf.read k))

/-- The pseudo-instructions are the commands they expand to (30_encoding.md R87), and complete from IDLE, strict or not, with the
response of the expansion's fields. -/
def Obligations.PseudoInstructionsRunTheirExpansion : Prop :=
  ∀ (s : State) (h : Vector Word 8) (m : Vector Word 16) (t : Vector Word 2) (last : Bool) (rounds : BitVec 32),
    (exec (.blake2bBlock h m t last) s =
      exec (.blake2f { rounds := 12, h := h, m := m, t := t, f := if last then 1 else 0 }) s) ∧
    (exec (.blake2fZero rounds) s =
      exec (.blake2f
        { rounds := rounds, h := Vector.replicate 8 0, m := Vector.replicate 16 0, t := Vector.replicate 2 0, f := 0 }) s) ∧
    (s.endTransaction = s →
      (∃ u, exec (.blake2bBlock h m t last) s = .next u ∧ u.fsm = Fsm.done ∧ u.status = some 0 ∧
        u.hout = some (Reference.compress { rounds := 12, h := h, m := m, t := t, f := if last then 1 else 0 })) ∧
      (∃ u, exec (.blake2fZero rounds) s = .next u ∧ u.fsm = Fsm.done ∧ u.status = some 0 ∧
        u.hout = some (Reference.compress
          { rounds := rounds, h := Vector.replicate 8 0, m := Vector.replicate 16 0, t := Vector.replicate 2 0, f := 0 })))

/-- While the block is not IDLE the requester holds (40_transaction.md R102): a request row does nothing (log entry 5). -/
def Obligations.RequestRowsHoldWhileNotIdle : Prop :=
  ∀ (s : State) (p : Payload) (bytes : List Byte) (h : Vector Word 8) (m : Vector Word 16) (t : Vector Word 2) (last : Bool)
    (rounds : BitVec 32), s.fsm = Fsm.busy ∨ s.fsm = Fsm.done →
    ∀ i ∈ [Instr.blake2f p, .blake2fStrict p, .invalidInputLength bytes, .invalidFinalFlag p, .blake2bBlock h m t last,
        .blake2fZero rounds],
      exec i s = .next s

/-- A request row is its bytes: the mode of the block, not the row, decides what CHK makes of them (30_encoding.md R80 to R82; log
entry 7). So each row is answered for every operand, those its match column shuts out too. -/
def Obligations.RequestRowsActByTheirBytes : Prop :=
  ∀ (s : State) (p : Payload),
    exec (.blake2fStrict p) s = exec (.blake2f p) s ∧ exec (.invalidFinalFlag p) s = exec (.blake2f p) s ∧
      exec (.invalidInputLength (encodePayload p)) s = exec (.blake2f p) s

/-- Zero rounds (43_serializer.md R184): the output is the IV with T and the final flag XORed in, whatever `h` and `m` are. -/
def Obligations.ZeroRoundsGiveTheClosedForm : Prop :=
  ∀ (s : State) (p : Payload), s.endTransaction = s → s.strict = false → p.rounds = 0 →
    ∃ t, exec (.blake2f p) s = .next t ∧
      t.hout = some
        #v[Rom.iv[0], Rom.iv[1], Rom.iv[2], Rom.iv[3], Rom.iv[4] ^^^ p.t[0], Rom.iv[5] ^^^ p.t[1],
           Rom.iv[6] ^^^ (if p.f = 0 then 0 else 0xFFFFFFFFFFFFFFFF), Rom.iv[7]]

/-- Outside strict mode the final bytes 2 to 255 behave exactly as 1 (30_encoding.md R82): the response is the same. -/
def Obligations.NonzeroFinalBytesAreAliases : Prop :=
  ∀ (p : Payload) (f : Byte), f ≠ 0 →
    Reference.response false (encodePayload { p with f := f }) = Reference.response false (encodePayload { p with f := 1 }) ∧
    ∀ s : State, s.endTransaction = s → s.strict = false →
      ∃ t u, exec (.blake2f { p with f := f }) s = .next t ∧ exec (.blake2f { p with f := 1 }) s = .next u ∧
        t.status = u.status ∧ t.outBuf = u.outBuf ∧ t.v = u.v ∧ t.hout = u.hout ∧ t.f = u.f

/-! ### The step -/

/-- A BUSY block whose requester holds, or passes, executes the phase PHASE names (40_transaction.md R102, R103). That a held command stays
on the agenda and the block steps past it, and that a pass is a turn which the phase's step uses up, is the model's choice (log entries
4, 5 and 19). -/
def Obligations.StepRunsThePhase : Prop :=
  ∀ (s : State) (code : BitVec 4), s.fsm = Fsm.busy → s.status ≠ some Status.reserved → s.phase = some code →
    (holding s.agenda = true → step s = exec (decodePhase code) s) ∧
    (∀ rest, s.agenda = .pass :: rest → step s = exec (decodePhase code) { s with agenda := rest })

/-- A command that is enabled runs as the next step and is used up (40_transaction.md R101, R108; 70_reset_and_hazards.md R240): SUBMIT
in IDLE, CONSUME in DONE, RESET in any state. In a block that is not BUSY the commands it holds do not delay it: a CONSUME behind SUBMITs
held in DONE is taken, and lifts their hold (40_transaction.md R102). That the commands are turns of an agenda, and which turns go before
a held one, is the model's choice (log entries 4 and 5), and so is that a reserved register value comes before RESET (log entry 12). -/
def Obligations.StepRunsAnEnabledCommand : Prop :=
  ∀ (s : State) (c : Handshake) (held rest : List Turn),
    s.agenda = held ++ .command c :: rest → (∀ turn ∈ held, s.heldTurn turn = true) → s.Legal →
    (match c with
      | .submit _ => s.fsm = Fsm.idle
      | .consume => s.fsm = Fsm.done
      | .reset => True) →
    step s = exec (decodeHandshake c) { s with agenda := held ++ rest }

/-- An opcode-table word, once placed, is what the next step runs (log entry 8): a phase code as the phase, in the state it was placed
in; a request of two bytes or more as the SUBMIT of its bytes to an idle block. -/
def Obligations.PlacedWordsRunNext : Prop :=
  ∀ s : State, s.status ≠ some Status.reserved →
    (∀ code : BitVec 4,
      step (s.withFetchWord 8 code.toNat) = exec (decodePhase code) (s.withFetchWord 8 code.toNat)) ∧
    ((∀ code ∈ s.phase, code ≤ Phase.ser) → ∀ n w : Nat, 2 ≤ n → w < 2 ^ (8 * n) →
      step (s.withFetchWord (8 * n) w) = exec (.submit (bytesOfNat n w)) { s with fsm := Fsm.idle, agenda := [] })

/-- A block that is not BUSY takes no step of its own (60_exceptions.md R216): where every turn left is a command its state does not enable,
nothing changes, and a turn in which the requester passes is used up and changes nothing else (log entries 4 and 5). -/
def Obligations.BlockThatIsNotBusyStaysPut : Prop :=
  ∀ s : State, s.fsm = Fsm.idle ∨ s.fsm = Fsm.done → s.Legal →
    ((∀ turn ∈ s.agenda, s.heldTurn turn = true) → step s = .next s) ∧
    (∀ held rest, s.agenda = held ++ .pass :: rest → (∀ turn ∈ held, s.heldTurn turn = true) →
      step s = .next { s with agenda := held ++ rest })

/-- A state whose FSM or STATUS holds the value 3 stops (60_exceptions.md R217), whatever comes next, and so does every instruction
that reads the register. That FSM is tested before STATUS is the model's choice (log entry 12). -/
def Obligations.ReservedFsmOrStatusStops : Prop :=
  ∀ (s : State) (p : Payload) (bytes : List Byte) (h : Vector Word 8) (m : Vector Word 16) (t : Vector Word 2) (last : Bool)
    (rounds : BitVec 32),
    (s.fsm = 3 → step s = .fault .reservedFsm ∧
      ∀ i ∈ [Instr.blake2f p, .blake2fStrict p, .invalidInputLength bytes, .invalidFinalFlag p, .submit bytes, .consume,
          .blake2bBlock h m t last, .blake2fZero rounds],
        exec i s = .fault .reservedFsm) ∧
    (s.fsm ≠ 3 → s.status = some 3 → step s = .fault .reservedStatus) ∧
    (s.fsm = Fsm.done → s.status = some 3 → exec .consume s = .fault .reservedStatus)

/-- RESET during a transaction (70_reset_and_hazards.md R241): the transaction is abandoned, its response is never delivered, and the
block serves the next request as from reset. -/
def Obligations.ResetAbandonsTheTransaction : Prop :=
  ∀ (s : State) (bytes : List Byte) (rest : List Turn), s.Inv → s.agenda = .command .reset :: .command (.submit bytes) ::
      .command .consume :: rest →
    Host.Core.run Sys2Proof.core (1 + (1 + Reference.steps s.strict bytes + 1)) s =
      .next { s.endTransaction with
              agenda := rest, delivered := s.delivered ++ [Reference.response s.strict bytes] }

/-! ### Whole-machine rules -/

/-- Every instruction keeps both buffers canonical: offsets rising, IN's below 213 and OUT's below 64. The sizes are the spec's
(20_memory.md R50; 10_state.md R22, R30); that a buffer is a list of cells, and its canonical form the rising offsets, is the model's own
(log entry 10). -/
def Obligations.BuffersStayCanonical : Prop :=
  ∀ (i : Instr) (s t : State), s.inBuf.wf 213 = true → s.outBuf.wf 64 = true → exec i s = .next t →
    t.inBuf.wf 213 = true ∧ t.outBuf.wf 64 = true

/-- STRICT_FINAL_FLAG is never written by the block (10_state.md R32), and only CONSUME delivers (10_state.md R33). That what the other
agents have yet to do is an agenda, which no instruction touches, and what they have received a list, is the model's choice (log
entries 4 and 6). -/
def Obligations.OnlyConsumeReachesTheRequester : Prop :=
  ∀ (i : Instr) (s t : State), exec i s = .next t →
    t.strict = s.strict ∧ t.agenda = s.agenda ∧ (i ≠ .consume → t.delivered = s.delivered)

/-- The decoded fields are read-only after DEC (10_state.md R24), and IN and INLEN after acceptance (R22): no other phase changes
them. -/
def Obligations.PhasesKeepTheDecodedFields : Prop :=
  ∀ (code : BitVec 4) (s t : State), exec (decodePhase code) s = .next t →
    t.inBuf = s.inBuf ∧ t.inLen = s.inLen ∧
    (code ≠ Phase.dec → t.rounds = s.rounds ∧ t.h = s.h ∧ t.m = s.m ∧ t.t = s.t ∧ t.f = s.f)

/-- The state after reset meets the invariant. -/
def Obligations.ResetStateMeetsTheInvariant : Prop := State.reset.Inv

/-- Every step keeps the invariant: in every state, PHASE, I and every register hold what the rules say they hold at that point of the
transaction (10_state.md R37, R39; 70_reset_and_hazards.md R246). -/
def Obligations.EveryStepKeepsTheInvariant : Prop :=
  ∀ s t : State, s.Inv → step s = .next t → t.Inv

/-- The model-level faults are unreachable (70_reset_and_hazards.md R246): from a state that meets the invariant a step answers a next
state, or refuses a change of STRICT_FINAL_FLAG in flight, and never faults. A BUSY block whose requester holds or passes makes progress:
the step answers the next state of the phase PHASE names, and that is another state (40_transaction.md R103). That a turn in which the
requester passes or holds is such a step is the model's reading of fairness (log entries 5 and 19). -/
def Obligations.NoReachableStateFaults : Prop :=
  ∀ s : State, s.Inv →
    ((∃ t, step s = .next t) ∨
      (step s = .refused .strictFlagChangedInFlight ∧ s.fsm ≠ Fsm.idle ∧
        ∃ held rest, s.agenda = held ++ .setStrictFinalFlag (!s.strict) :: rest ∧ ∀ turn ∈ held, s.heldTurn turn = true)) ∧
    (s.fsm = Fsm.busy → ∀ rest, (holding s.agenda = true ∧ rest = s.agenda) ∨ s.agenda = .pass :: rest →
      ∃ code t, s.phase = some code ∧ step s = .next t ∧ exec (decodePhase code) { s with agenda := rest } = .next t ∧
        (t.phase, t.fsm) ≠ (s.phase, s.fsm))

/-- A response the requester consumes is the one function of the request latched for it and of STRICT_FINAL_FLAG (40_transaction.md
R110; 10_state.md R36). -/
def Obligations.ConsumedResponseIsAFunctionOfTheRequest : Prop :=
  ∀ s : State, s.Inv → s.fsm = Fsm.done →
    ∃ bytes, s.HoldsRequest bytes ∧
      exec .consume s =
        .next { s.endTransaction with delivered := s.delivered ++ [Reference.response s.strict bytes] }

/-- The step count (40_transaction.md R109, R113): from SUBMIT a transaction is BUSY before, and DONE after, exactly `5 + 6 · ROUNDS`
steps, or 1 when CHK raises an error, for every round count. -/
def Obligations.TransactionsTakeTheExactStepCount : Prop :=
  ∀ (s : State) (bytes : List Byte) (rest : List Turn), s.endTransaction = s →
    s.agenda = .command (.submit bytes) :: rest → holding rest = true →
    (∀ k, k < Reference.steps s.strict bytes →
      ∃ t, Host.Core.run Sys2Proof.core (1 + k) s = .next t ∧ t.fsm = Fsm.busy) ∧
    (∃ t, Host.Core.run Sys2Proof.core (1 + Reference.steps s.strict bytes) s = .next t ∧ t.fsm = Fsm.done)

/-- The whole transaction (40_transaction.md R100, R109, R110; 10_state.md R39): SUBMIT, the sequencer's steps and CONSUME deliver
the response of the request, and leave the block as it was. -/
def Obligations.TransactionDeliversTheReferenceResponse : Prop :=
  ∀ (s : State) (bytes : List Byte) (rest : List Turn), s.endTransaction = s →
    s.agenda = .command (.submit bytes) :: .command .consume :: rest →
    Host.Core.run Sys2Proof.core (1 + Reference.steps s.strict bytes + 1) s =
      .next { s with agenda := rest, delivered := s.delivered ++ [Reference.response s.strict bytes] }

/-- A request's row, executed as one instruction, is its SUBMIT followed by its steps of the machine (40_transaction.md R100: the
composition of the phases; log entry 7). -/
def Obligations.RequestRowsRefineToSteps : Prop :=
  ∀ (s : State) (bytes : List Byte) (rest : List Turn), s.endTransaction = s →
    s.agenda = .command (.submit bytes) :: rest → holding rest = true →
    Host.Core.run Sys2Proof.core (1 + Reference.steps s.strict bytes) s =
      exec (decodeRequest s.strict bytes) { s with agenda := rest }

/-- Data independence (42_mixer.md R163; 40_transaction.md R109): two requests with the same `rounds` that CHK treats alike drive FSM,
PHASE, I and STATUS through the same values, step by step, whatever `h`, `m`, `t` and `f` are. -/
def Obligations.ControlFlowIgnoresTheData : Prop :=
  ∀ (strict : Bool) (p q : Payload) (k : Nat), p.rounds = q.rounds →
    (strict = true → rejectsFinalByte p.f = rejectsFinalByte q.f) →
    ∃ s t,
      Host.Core.run Sys2Proof.core k
        { State.reset with strict := strict, agenda := [.command (.submit (encodePayload p))] } = .next s ∧
      Host.Core.run Sys2Proof.core k
        { State.reset with strict := strict, agenda := [.command (.submit (encodePayload q))] } = .next t ∧
      s.fsm = t.fsm ∧ s.phase = t.phase ∧ s.i = t.i ∧ s.status = t.status

/-- Instances cannot observe one another (60_exceptions.md R214): a step of one is its own step of the machine and leaves every other as
it was, and steps of two instances give the same in either order. That the instances are a list which steps one at a time, and that a
stop leaves its instance as it was, is the model's choice (log entry 16). -/
def Obligations.InstancesAreIndependent : Prop :=
  ∀ (sys : Instances) (j k : Nat), j ≠ k →
    (sys.stepAt j)[k]? = sys[k]? ∧ (sys.stepAt j).stepAt k = (sys.stepAt k).stepAt j ∧
    (∀ s, sys[k]? = some s →
      (∀ t, step s = .next t → (sys.stepAt k)[k]? = some t) ∧
      (∀ r, step s = .fault r → (sys.stepAt k)[k]? = some s) ∧
      (∀ r, step s = .refused r → (sys.stepAt k)[k]? = some s))

/-- A second request holds until the first response is consumed (40_transaction.md R102; 70_reset_and_hazards.md R249): the block's own
steps bring it to DONE, the CONSUME behind the held SUBMIT is taken there, the hold is lifted, and both responses are delivered in order.
That the SUBMIT holds as a turn of the agenda and the CONSUME behind it goes first is the model's choice (log entries 4 and 5). -/
def Obligations.ConsumeLiftsTheHold : Prop :=
  ∀ (s : State) (first second : List Byte) (rest : List Turn), s.endTransaction = s →
    s.agenda = .command (.submit first) :: .command (.submit second) :: .command .consume :: .command .consume :: rest →
    Host.Core.run Sys2Proof.core
        (1 + Reference.steps s.strict first + 1 + (1 + Reference.steps s.strict second + 1)) s =
      .next { s with
              agenda := rest
              delivered := s.delivered ++ [Reference.response s.strict first, Reference.response s.strict second] }
end

