-- ==== Sys2Proof/Laws/Columns.lean ====
section
/-! SUPPORT. The working vector by its columns: a V is its four columns, and what the mixes and the lane moves do to each. -/

namespace Sys2Proof.Machine

/-- Two working vectors with the same words are the same. -/
theorem vector_ext_fin {n : Nat} {v w : Vector Word n} (h : ∀ k : Fin n, v[k] = w[k]) : v = w :=
  Vector.ext fun k hk => h ⟨k, hk⟩

@[simp] theorem column_ofColumns (q : Vector Column 4) (j : Fin 4) : column (ofColumns q) j = q[j] := by
  fin_cases j <;> rfl

/-- A working vector is its four columns. -/
theorem vector_ext_columns {v w : Vector Word 16} (h : ∀ j, column v j = column w j) : v = w := by
  have h0 := h 0
  have h1 := h 1
  have h2 := h 2
  have h3 := h 3
  simp only [column, Column.mk.injEq] at h0 h1 h2 h3
  refine vector_ext_fin fun k => ?_
  fin_cases k
  exacts [h0.1, h1.1, h2.1, h3.1, h0.2.1, h1.2.1, h2.2.1, h3.2.1, h0.2.2.1, h1.2.2.1, h2.2.2.1, h3.2.2.1, h0.2.2.2,
    h1.2.2.2, h2.2.2.2, h3.2.2.2]

/-- A half-mix acts on each column alone. -/
@[simp] theorem column_mixColumns (f : Column → Word → Column) (x : Vector Word 4) (v : Vector Word 16) (j : Fin 4) :
    column (mixColumns f x v) j = f (column v j) x[j] := by
  simp [mixColumns]

@[simp] theorem messageWords_getElem (m : Vector Word 16) (i : BitVec 32) (pos : Vector (Fin 16) 4) (j : Fin 4) :
    (messageWords m i pos)[j] = m[(Rom.sigmaRow i)[pos[j]]] := by
  simp [messageWords]

/-- In-place mixing of one column changes that column. -/
@[simp] theorem column_mixColumnAt_same (f : Column → Word → Column) (x : Vector Word 4) (v : Vector Word 16) (j : Fin 4) :
    column (Reference.mixColumnAt f x v j) j = f (column v j) x[j] := by
  fin_cases j <;> simp [Reference.mixColumnAt, column, lane]

/-- In-place mixing of one column changes no other. -/
theorem column_mixColumnAt_ne (f : Column → Word → Column) (x : Vector Word 4) (v : Vector Word 16) {j k : Fin 4} (h : k ≠ j) :
    column (Reference.mixColumnAt f x v j) k = column v k := by
  revert h
  fin_cases j <;> fin_cases k <;> simp [Reference.mixColumnAt, column, lane]

end Sys2Proof.Machine
end

