-- ==== Sys2Proof/Laws/Memory.lean ====
section
/-! SUPPORT. The laws of the byte buffers: what a read gives after a write, and that every write keeps the canonical form. -/

namespace Sys2Proof.Machine

@[simp] theorem Memory.read_nil (x : Nat) : Memory.read [] x = none := rfl

theorem Memory.read_write (m : Memory) (x y : Nat) (b : Byte) :
    (m.write x b).read y = if y = x then some b else m.read y := by
  induction m with
  | nil => simp [Memory.write, Memory.read, Memory.unlisted]
  | cons c rest ih =>
    obtain ⟨o, d⟩ := c
    simp only [Memory.write]
    split
    · simp only [Memory.read]
    · split
      · subst_vars
        simp only [Memory.read]
        split <;> simp_all
      · simp only [Memory.read, ih]
        by_cases hy : y = o <;> by_cases hx : y = x <;> simp_all

theorem Memory.read_writeAll (m : Memory) (x : Nat) (bs : List Byte) (y : Nat) :
    (m.writeAll x bs).read y = if x ≤ y ∧ y < x + bs.length then bs[y - x]? else m.read y := by
  induction bs generalizing x with
  | nil => simp [Memory.writeAll]
  | cons b bs ih =>
    rw [Memory.writeAll, Memory.read_write, ih]
    by_cases h0 : y = x
    · subst h0; simp
    · by_cases h1 : x ≤ y ∧ y < x + (b :: bs).length
      · have h2 : x + 1 ≤ y ∧ y < x + 1 + bs.length := by simp at h1; omega
        have h3 : y - x = (y - (x + 1)) + 1 := by omega
        rw [if_neg h0, if_pos h2, if_pos h1, h3, List.getElem?_cons_succ]
      · have h2 : ¬(x + 1 ≤ y ∧ y < x + 1 + bs.length) := by simp at h1; omega
        rw [if_neg h0, if_neg h2, if_neg h1]

/-- A write inside the buffer keeps the canonical form. -/
theorem Memory.wfFrom_write {size lo x : Nat} {m : Memory} (b : Byte) (h : m.wfFrom size lo = true) (hlo : lo ≤ x)
    (hx : x < size) : (m.write x b).wfFrom size lo = true := by
  induction m generalizing lo with
  | nil => simp [Memory.write, Memory.wfFrom, hlo, hx]
  | cons c rest ih =>
    obtain ⟨o, d⟩ := c
    simp only [Memory.wfFrom, Bool.and_eq_true, decide_eq_true_eq] at h
    simp only [Memory.write]
    split
    · rename_i hlt
      simp only [Memory.wfFrom, Bool.and_eq_true, decide_eq_true_eq]
      exact ⟨⟨hlo, hx⟩, ⟨hlt, h.1.2⟩, h.2⟩
    · split
      · subst_vars
        simp only [Memory.wfFrom, Bool.and_eq_true, decide_eq_true_eq]
        exact ⟨h.1, h.2⟩
      · rename_i h1 h2
        simp only [Memory.wfFrom, Bool.and_eq_true, decide_eq_true_eq]
        exact ⟨h.1, ih h.2 (by omega)⟩

theorem Memory.wf_write {size x : Nat} {m : Memory} (b : Byte) (h : m.wf size = true) (hx : x < size) :
    (m.write x b).wf size = true :=
  Memory.wfFrom_write b h (Nat.zero_le x) hx

theorem Memory.wf_writeAll {size x : Nat} {m : Memory} (bs : List Byte) (h : m.wf size = true)
    (hx : x + bs.length ≤ size) : (m.writeAll x bs).wf size = true := by
  induction bs generalizing x with
  | nil => exact h
  | cons b bs ih =>
    simp only [List.length_cons] at hx
    exact Memory.wf_write b (ih (by omega)) (by omega)

theorem Memory.wf_nil (size : Nat) : Memory.wf size [] = true := rfl

/-- Below its first offset a canonical buffer holds no value. -/
theorem Memory.read_below {size lo x : Nat} {m : Memory} (h : m.wfFrom size lo = true) (hx : x < lo) : m.read x = none := by
  induction m generalizing lo with
  | nil => rfl
  | cons c rest ih =>
    obtain ⟨o, d⟩ := c
    simp only [Memory.wfFrom, Bool.and_eq_true, decide_eq_true_eq] at h
    rw [Memory.read, if_neg (by omega), ih h.2 (by omega)]

/-- Canonical buffers that read the same are the same list. -/
theorem Memory.ext_of_read {size lo : Nat} {m n : Memory} (hm : m.wfFrom size lo = true) (hn : n.wfFrom size lo = true)
    (h : ∀ x, m.read x = n.read x) : m = n := by
  induction m generalizing lo n with
  | nil =>
    cases n with
    | nil => rfl
    | cons c rest => have := h c.1; simp [Memory.read, Memory.unlisted] at this
  | cons c rest ih =>
    obtain ⟨o, d⟩ := c
    cases n with
    | nil => have := h o; simp [Memory.read, Memory.unlisted] at this
    | cons c' rest' =>
      obtain ⟨o', d'⟩ := c'
      simp only [Memory.wfFrom, Bool.and_eq_true, decide_eq_true_eq] at hm hn
      have ho : o = o' := by
        rcases Nat.lt_trichotomy o o' with hlt | heq | hgt
        · have := h o
          rw [Memory.read, if_pos rfl, Memory.read, if_neg (by omega), Memory.read_below hn.2 (by omega)] at this
          cases this
        · exact heq
        · have := h o'
          rw [Memory.read, if_neg (by omega), Memory.read_below hm.2 (by omega), Memory.read, if_pos rfl] at this
          cases this
      subst ho
      have hd : d = d' := by simpa [Memory.read] using h o
      subst hd
      congr 1
      refine ih hm.2 hn.2 fun x => ?_
      by_cases hx : x = o
      · rw [Memory.read_below hm.2 (by omega), Memory.read_below hn.2 (by omega)]
      · simpa [Memory.read, hx] using h x

end Sys2Proof.Machine
end

