-- ==== Sys2Proof/Laws/State.lean ====
section
/-! SUPPORT. One lemma per field per named update of the state. -/

namespace Sys2Proof.Machine

/-! ### The end of a transaction -/

@[simp] theorem State.endTransaction_fsm (s : State) : s.endTransaction.fsm = Fsm.idle := rfl
@[simp] theorem State.endTransaction_phase (s : State) : s.endTransaction.phase = none := rfl
@[simp] theorem State.endTransaction_i (s : State) : s.endTransaction.i = none := rfl
@[simp] theorem State.endTransaction_inBuf (s : State) : s.endTransaction.inBuf = [] := rfl
@[simp] theorem State.endTransaction_inLen (s : State) : s.endTransaction.inLen = none := rfl
@[simp] theorem State.endTransaction_rounds (s : State) : s.endTransaction.rounds = none := rfl
@[simp] theorem State.endTransaction_h (s : State) : s.endTransaction.h = none := rfl
@[simp] theorem State.endTransaction_m (s : State) : s.endTransaction.m = none := rfl
@[simp] theorem State.endTransaction_t (s : State) : s.endTransaction.t = none := rfl
@[simp] theorem State.endTransaction_f (s : State) : s.endTransaction.f = none := rfl
@[simp] theorem State.endTransaction_v (s : State) : s.endTransaction.v = none := rfl
@[simp] theorem State.endTransaction_hout (s : State) : s.endTransaction.hout = none := rfl
@[simp] theorem State.endTransaction_outBuf (s : State) : s.endTransaction.outBuf = [] := rfl
@[simp] theorem State.endTransaction_status (s : State) : s.endTransaction.status = none := rfl
@[simp] theorem State.endTransaction_strict (s : State) : s.endTransaction.strict = s.strict := rfl
@[simp] theorem State.endTransaction_agenda (s : State) : s.endTransaction.agenda = s.agenda := rfl
@[simp] theorem State.endTransaction_delivered (s : State) : s.endTransaction.delivered = s.delivered := rfl

@[simp] theorem State.endTransaction_endTransaction (s : State) : s.endTransaction.endTransaction = s.endTransaction := rfl

/-! ### DEC's writes -/

@[simp] theorem State.writeFields_fsm (s : State) (p : Payload) : (s.writeFields p).fsm = s.fsm := rfl
@[simp] theorem State.writeFields_phase (s : State) (p : Payload) : (s.writeFields p).phase = some Phase.init := rfl
@[simp] theorem State.writeFields_i (s : State) (p : Payload) : (s.writeFields p).i = s.i := rfl
@[simp] theorem State.writeFields_inBuf (s : State) (p : Payload) : (s.writeFields p).inBuf = s.inBuf := rfl
@[simp] theorem State.writeFields_inLen (s : State) (p : Payload) : (s.writeFields p).inLen = s.inLen := rfl
@[simp] theorem State.writeFields_rounds (s : State) (p : Payload) : (s.writeFields p).rounds = some p.rounds := rfl
@[simp] theorem State.writeFields_h (s : State) (p : Payload) : (s.writeFields p).h = some p.h := rfl
@[simp] theorem State.writeFields_m (s : State) (p : Payload) : (s.writeFields p).m = some p.m := rfl
@[simp] theorem State.writeFields_t (s : State) (p : Payload) : (s.writeFields p).t = some p.t := rfl
@[simp] theorem State.writeFields_f (s : State) (p : Payload) : (s.writeFields p).f = some (finalFlag p.f) := rfl
@[simp] theorem State.writeFields_v (s : State) (p : Payload) : (s.writeFields p).v = s.v := rfl
@[simp] theorem State.writeFields_hout (s : State) (p : Payload) : (s.writeFields p).hout = s.hout := rfl
@[simp] theorem State.writeFields_outBuf (s : State) (p : Payload) : (s.writeFields p).outBuf = s.outBuf := rfl
@[simp] theorem State.writeFields_status (s : State) (p : Payload) : (s.writeFields p).status = s.status := rfl
@[simp] theorem State.writeFields_strict (s : State) (p : Payload) : (s.writeFields p).strict = s.strict := rfl
@[simp] theorem State.writeFields_agenda (s : State) (p : Payload) : (s.writeFields p).agenda = s.agenda := rfl
@[simp] theorem State.writeFields_delivered (s : State) (p : Payload) : (s.writeFields p).delivered = s.delivered := rfl

/-! ### The buffers -/

@[simp] theorem State.buffer_input (s : State) : s.buffer .input = s.inBuf := rfl
@[simp] theorem State.buffer_output (s : State) : s.buffer .output = s.outBuf := rfl
@[simp] theorem State.setBuffer_input (s : State) (b : Memory) : s.setBuffer .input b = { s with inBuf := b } := rfl
@[simp] theorem State.setBuffer_output (s : State) (b : Memory) : s.setBuffer .output b = { s with outBuf := b } := rfl
@[simp] theorem Space.size_input : Space.size .input = 213 := rfl
@[simp] theorem Space.size_output : Space.size .output = 64 := rfl

/-! ### A blank block -/

/-- A block at the end of its transaction is IDLE and holds no value anywhere. -/
theorem State.blank_of_endTransaction {s : State} (h : s.endTransaction = s) :
    s.fsm = Fsm.idle ∧ s.phase = none ∧ s.i = none ∧ s.inBuf = [] ∧ s.inLen = none ∧ s.NoFields ∧ s.NoWork ∧
      s.outBuf = [] ∧ s.status = none := by
  rw [← h]
  exact ⟨rfl, rfl, rfl, rfl, rfl, ⟨rfl, rfl, rfl, rfl, rfl⟩, ⟨rfl, rfl, rfl⟩, rfl, rfl⟩

end Sys2Proof.Machine
end

