-- ==== Sys2Proof/Laws/Ops.lean ====
section
/-! SUPPORT. The shared operations, each said once: what it answers, and what an answer that is a next state came from. -/

namespace Sys2Proof.Machine

/-! ### Reading registers -/

@[simp] theorem readReg_some {α : Type} (r : Reg) (x : α) (k : α → Out) : readReg r (some x) k = k x := rfl

@[simp] theorem readReg_none {α : Type} (r : Reg) (k : α → Out) : readReg r none k = .fault (.noValue r) := rfl

/-- A register read that leads to a next state found a value. -/
theorem readReg_next {α : Type} {r : Reg} {value : Option α} {k : α → Out} {t : State} (h : readReg r value k = .next t) :
    ∃ x, value = some x ∧ k x = .next t := by
  cases value with
  | none => cases h
  | some x => exact ⟨x, rfl, h⟩

theorem readFsm_of_ne {s : State} (h : s.fsm ≠ Fsm.reserved) (k : BitVec 2 → Out) : readFsm s k = k s.fsm := if_neg h

theorem readFsm_idle {s : State} (h : s.fsm = Fsm.idle) (k : BitVec 2 → Out) : readFsm s k = k Fsm.idle := by
  rw [readFsm_of_ne (by rw [h]; decide), h]

theorem readFsm_busy {s : State} (h : s.fsm = Fsm.busy) (k : BitVec 2 → Out) : readFsm s k = k Fsm.busy := by
  rw [readFsm_of_ne (by rw [h]; decide), h]

theorem readFsm_done {s : State} (h : s.fsm = Fsm.done) (k : BitVec 2 → Out) : readFsm s k = k Fsm.done := by
  rw [readFsm_of_ne (by rw [h]; decide), h]

theorem readFsm_next {s t : State} {k : BitVec 2 → Out} (h : readFsm s k = .next t) :
    s.fsm ≠ Fsm.reserved ∧ k s.fsm = .next t := by
  unfold readFsm at h
  split at h
  · cases h
  · exact ⟨‹_›, h⟩

/-! ### Going on -/

@[simp] theorem andThen_next (s : State) (k : State → Out) : andThen (.next s) k = k s := rfl

@[simp] theorem andThen_fault (r : Fault) (k : State → Out) : andThen (.fault r) k = .fault r := rfl

@[simp] theorem andThen_refused (r : Refusal) (k : State → Out) : andThen (.refused r) k = .refused r := rfl

theorem andThen_eq_next {o : Out} {k : State → Out} {t : State} (h : andThen o k = .next t) :
    ∃ s, o = .next s ∧ k s = .next t := by
  cases o with
  | next s => exact ⟨s, rfl, h⟩
  | fault r => cases h
  | refused r => cases h

/-! ### Buffers -/

/-- MemRead of bytes that all hold values gives them, in order. -/
theorem memRead_of_read (sp : Space) (s : State) (bs : List Byte) :
    ∀ (a : Nat) (k : List Byte → Out), a + bs.length ≤ sp.size →
      (∀ j, j < bs.length → (s.buffer sp).read (a + j) = bs[j]?) → memRead sp a bs.length s k = k bs := by
  induction bs with
  | nil => intro a k _ _; rfl
  | cons b bs ih =>
    intro a k hsize hread
    simp only [List.length_cons] at hsize hread ⊢
    have h0 : (s.buffer sp).read a = some b := by simpa using hread 0 (by omega)
    have ha : ¬sp.size ≤ a := by omega
    simp only [memRead, if_neg ha, h0]
    refine ih (a + 1) (fun bs => k (b :: bs)) (by omega) fun j hj => ?_
    have := hread (j + 1) (by omega)
    rw [List.getElem?_cons_succ] at this
    rw [← this]
    congr 1
    omega

/-- MemRead meets its first byte without a value. -/
theorem memRead_fault (sp : Space) (s : State) (n j : Nat) :
    ∀ (a : Nat) (k : List Byte → Out), j < n → a + n ≤ sp.size →
      (∀ i, i < j → ((s.buffer sp).read (a + i)).isSome) → (s.buffer sp).read (a + j) = none →
      memRead sp a n s k = .fault (.noByte sp (a + j)) := by
  induction n generalizing j with
  | zero => intro a k h; omega
  | succ n ih =>
    intro a k hj hsize hsome hnone
    have ha : ¬sp.size ≤ a := by omega
    cases j with
    | zero => simp only [Nat.add_zero] at hnone ⊢; simp only [memRead, if_neg ha, hnone]
    | succ j =>
      obtain ⟨b, hb⟩ := Option.isSome_iff_exists.mp (by simpa using hsome 0 (by omega))
      simp only [memRead, if_neg ha, hb]
      have e : ∀ i, a + 1 + i = a + (i + 1) := fun i => by omega
      rw [ih j (a + 1) (fun bs => k (b :: bs)) (by omega) (by omega) (fun i hi => by rw [e]; exact hsome _ (by omega))
        (by rw [e]; exact hnone), e]

/-- A MemRead that leads to a next state found every byte. -/
theorem memRead_next {sp : Space} {s t : State} {n : Nat} :
    ∀ {a : Nat} {k : List Byte → Out}, memRead sp a n s k = .next t →
      ∃ bs, bs.length = n ∧ (∀ j, j < n → (s.buffer sp).read (a + j) = bs[j]?) ∧ k bs = .next t := by
  induction n with
  | zero => intro a k h; exact ⟨[], rfl, fun j hj => by omega, h⟩
  | succ n ih =>
    intro a k h
    rw [memRead] at h
    split at h
    · cases h
    · split at h
      · cases h
      · rename_i b hb
        obtain ⟨bs, hlen, hread, hk⟩ := ih h
        refine ⟨b :: bs, by simp [hlen], fun j hj => ?_, hk⟩
        cases j with
        | zero => simpa using hb
        | succ j =>
          rw [List.getElem?_cons_succ, ← hread j (by omega)]
          congr 1
          omega

/-- MemWrite of bytes that fit. -/
theorem memWrite_of_fits {sp : Space} {a : Nat} {bytes : List Byte} (h : a + bytes.length ≤ sp.size) (s : State)
    (k : State → Out) : memWrite sp a bytes s k = k (s.setBuffer sp ((s.buffer sp).writeAll a bytes)) :=
  if_neg (by omega)

/-- A MemWrite that leads to a next state fitted. -/
theorem memWrite_next {sp : Space} {a : Nat} {bytes : List Byte} {s t : State} {k : State → Out}
    (h : memWrite sp a bytes s k = .next t) :
    a + bytes.length ≤ sp.size ∧ k (s.setBuffer sp ((s.buffer sp).writeAll a bytes)) = .next t := by
  unfold memWrite at h
  split at h
  · cases h
  · exact ⟨by omega, h⟩

/-- MemRead of what a MemWrite of the same bytes left. -/
theorem memRead_writeAll (sp : Space) (s : State) (m : Memory) (bs : List Byte) (hbuf : s.buffer sp = m.writeAll 0 bs)
    (k : List Byte → Out) (hsize : bs.length ≤ sp.size) : memRead sp 0 bs.length s k = k bs := by
  refine memRead_of_read sp s bs 0 k (by omega) fun j hj => ?_
  rw [hbuf, Memory.read_writeAll, if_pos (by omega)]
  simp

end Sys2Proof.Machine
end

