-- ==== Sys2Proof/Laws/Phases.lean ====
section
/-! SUPPORT. The meanings, each said once: its answer from the values of the registers it reads, and the step's choice of it. -/

namespace Sys2Proof.Machine

/-! ### The phases -/

theorem rejectsFinalByte_eq_not_legal (b : Byte) : rejectsFinalByte b = !legalStrictFlag b := by
  revert b; decide

theorem admits_true_iff {strict : Bool} {b : Byte} : admits strict b = true ↔ (strict = true → rejectsFinalByte b = false) := by
  cases strict <;> simp [admits]

theorem execPhaseChk_wrong_length {s : State} {len : Nat} (h : s.inLen = some len) (hlen : len ≠ 213) :
    execPhaseChk s = .next { s with fsm := Fsm.done, status := some Status.invalidInputLength } := by
  simp [execPhaseChk, h, hlen, raise]

theorem execPhaseChk_lax {s : State} (h : s.inLen = some 213) (hs : s.strict = false) :
    execPhaseChk s = .next { s with phase := some Phase.dec } := by
  simp [execPhaseChk, h, hs]

theorem execPhaseChk_strict {s : State} {b : Byte} (h : s.inLen = some 213) (hs : s.strict = true)
    (hb : s.inBuf.read 212 = some b) :
    execPhaseChk s =
      if rejectsFinalByte b then .next { s with fsm := Fsm.done, status := some Status.invalidFinalFlag }
      else .next { s with phase := some Phase.dec } := by
  have hread := memRead_of_read .input s [b] 212
    (fun byte => if rejectsFinalByte (byte.getD 0 0) then raise Status.invalidFinalFlag s else .next { s with phase := some Phase.dec })
    (by simp) (fun j hj => by simp at hj; subst hj; simpa using hb)
  unfold execPhaseChk
  refine (congrArg (fun len => readReg .INLEN len _) h).trans ?_
  rw [readReg_some, if_neg (by simp), if_pos hs]
  exact hread

theorem execPhaseDec_of_read {s : State} {bs : List Byte} {p : Payload} (hp : decodePayload bs = some p)
    (hread : ∀ j, j < 213 → s.inBuf.read j = bs[j]?) : execPhaseDec s = .next (s.writeFields p) := by
  have hlen := length_of_decodePayload hp
  rw [execPhaseDec, show Config.payloadLen = bs.length from hlen.symm,
    memRead_of_read .input s bs 0 _ (by simp [hlen]) (fun j hj => by simpa using hread j (hlen ▸ hj)), hp]

theorem execPhaseInit_eq {s : State} {h : Vector Word 8} {t : Vector Word 2} {f : Bool} {r : BitVec 32}
    (hh : s.h = some h) (ht : s.t = some t) (hf : s.f = some f) (hr : s.rounds = some r) :
    execPhaseInit s =
      if r = 0 then .next { s with v := some (initValue h t f), phase := some Phase.fin }
      else .next { s with v := some (initValue h t f), i := some 0, phase := some Phase.g1c } := by
  simp [execPhaseInit, hh, ht, hf, hr]

theorem mixPhase_eq {s : State} {v m : Vector Word 16} {i : BitVec 32} (hv : s.v = some v) (hm : s.m = some m)
    (hi : s.i = some i) (value : Vector Word 16 → BitVec 32 → Vector Word 16 → Vector Word 16) (next : BitVec 4) :
    mixPhase value next s = .next { s with v := some (value m i v), phase := some next } := by
  simp [mixPhase, hv, hm, hi]

theorem execPhaseDiag_eq {s : State} {v : Vector Word 16} (hv : s.v = some v) :
    execPhaseDiag s = .next { s with v := some (diagValue v), phase := some Phase.g1d } := by
  simp [execPhaseDiag, hv]

theorem execPhaseUndiag_eq {s : State} {v : Vector Word 16} {i r : BitVec 32} (hv : s.v = some v) (hi : s.i = some i)
    (hr : s.rounds = some r) :
    execPhaseUndiag s =
      if i.toNat + 1 < r.toNat then .next { s with v := some (undiagValue v), i := some (i + 1), phase := some Phase.g1c }
      else .next { s with v := some (undiagValue v), phase := some Phase.fin } := by
  simp [execPhaseUndiag, hv, hi, hr]

theorem execPhaseFin_eq {s : State} {h : Vector Word 8} {v : Vector Word 16} (hh : s.h = some h) (hv : s.v = some v) :
    execPhaseFin s = .next { s with hout := some (finValue h v), phase := some Phase.ser } := by
  simp [execPhaseFin, hh, hv]

theorem serValue_length (hout : Vector Word 8) : (serValue hout).length = 64 := by simp [serValue, wordsBytes_length]

theorem execPhaseSer_eq {s : State} {x : Vector Word 8} (h : s.hout = some x) :
    execPhaseSer s =
      .next { s with outBuf := s.outBuf.writeAll 0 (serValue x), fsm := Fsm.done, status := some Status.ok } := by
  simp [execPhaseSer, h, memWrite_of_fits (sp := .output) (a := 0) (bytes := serValue x) (by simp [serValue_length])]

/-! ### The commands -/

theorem accept_eq (bytes : List Byte) (s : State) :
    accept bytes s =
      .next { s with
              inBuf := s.inBuf.writeAll 0 (bytes.take 213), inLen := some bytes.length, fsm := Fsm.busy,
              phase := some Phase.chk } := by
  simp [accept, memWrite_of_fits (sp := .input) (a := 0) (bytes := bytes.take 213) (by simp)]

theorem execSubmit_idle {s : State} (h : s.fsm = Fsm.idle) (bytes : List Byte) : execSubmit bytes s = accept bytes s := by
  simp [execSubmit, readFsm_idle h]

theorem execConsume_error {s : State} {c : BitVec 2} (h : s.fsm = Fsm.done) (hc : s.status = some c) (h0 : c ≠ Status.ok)
    (h3 : c ≠ Status.reserved) :
    execConsume s = .next { s.endTransaction with delivered := s.delivered ++ [{ status := c, out := none }] } := by
  simp only [execConsume, readFsm_done h, response, readStatus, hc, readReg_some, if_neg h3, if_neg h0, if_true]

theorem execConsume_ok {s : State} {out : List Byte} (h : s.fsm = Fsm.done) (hc : s.status = some Status.ok)
    (hlen : out.length = 64) (hread : ∀ j, j < 64 → s.outBuf.read j = out[j]?) :
    execConsume s =
      .next { s.endTransaction with delivered := s.delivered ++ [{ status := Status.ok, out := some out }] } := by
  have := memRead_of_read .output s out 0
    (fun out => .next { s.endTransaction with delivered := s.delivered ++ [{ status := Status.ok, out := some out }] })
    (by simp [hlen]) (fun j hj => by simpa using hread j (hlen ▸ hj))
  rw [hlen] at this
  simpa only [execConsume, readFsm_done h, response, readStatus, hc, readReg_some, if_true, Config.outLen,
    if_neg (show Status.ok ≠ Status.reserved by decide)] using this

/-! ### The step -/

theorem runPhase_eq_exec (code : BitVec 4) (s : State) : runPhase code s = exec (decodePhase code) s := by
  revert code
  have key : ∀ n : Fin 16, runPhase (BitVec.ofNat 4 n) s = exec (decodePhase (BitVec.ofNat 4 n)) s := fun n => by
    fin_cases n <;> rfl
  intro code
  have := key ⟨code.toNat, code.isLt⟩
  simpa using this

/-- The phases of the codes above SER have one meaning, the fault. -/
theorem runPhase_reserved {code : BitVec 4} (h : Phase.ser < code) (s : State) : runPhase code s = .fault (.reservedPhase code) := by
  revert h; revert code
  have key : ∀ n : Fin 16, Phase.ser < BitVec.ofNat 4 n →
      runPhase (BitVec.ofNat 4 n) s = .fault (.reservedPhase (BitVec.ofNat 4 n)) := fun n => by
    fin_cases n <;> simp [runPhase, execPhaseReserved]
  intro code
  simpa using key ⟨code.toNat, code.isLt⟩

theorem State.reservedValue_eq_none_iff (s : State) : s.reservedValue = none ↔ s.Legal := by
  unfold State.reservedValue State.Legal
  cases s.phase with
  | none => split_ifs <;> simp_all
  | some code => simp only; split_ifs <;> simp_all [BitVec.not_lt]

theorem State.reservedValue_of_phase {s : State} {code : BitVec 4} (hf : s.fsm ≠ Fsm.reserved)
    (hs : s.status ≠ some Status.reserved) (hp : s.phase = some code) (h : Phase.ser < code) :
    s.reservedValue = some (.reservedPhase code) := by
  rw [State.reservedValue, if_neg hf, if_neg hs, hp]
  exact if_pos h

theorem fetch_of_legal {s : State} (h : s.Legal) : fetch s = fetchTurn s := by
  rw [fetch, (State.reservedValue_eq_none_iff s).2 h]

/-- A state with a reserved value stops. -/
theorem step_of_reserved {s : State} {r : Fault} (h : s.reservedValue = some r) : step s = .fault r := by
  rw [step, fetch, h]

@[simp] theorem State.enables_submit (s : State) (bytes : List Byte) : s.enables (.submit bytes) = true ↔ s.fsm = Fsm.idle := by
  simp [State.enables]

@[simp] theorem State.enables_consume (s : State) : s.enables .consume = true ↔ s.fsm = Fsm.done := by simp [State.enables]

@[simp] theorem State.enables_reset (s : State) : s.enables .reset = true := rfl

/-! #### The turn taken next -/

/-- A held turn is a command that is not enabled, of a block that is not BUSY. -/
theorem State.heldTurn_iff {s : State} {turn : Turn} :
    s.heldTurn turn = true ↔
      (s.fsm = Fsm.done ∧ ∃ bytes, turn = .command (.submit bytes)) ∨ (s.fsm = Fsm.idle ∧ turn = .command .consume) := by
  unfold State.heldTurn
  split <;> simp

/-- Held turns are passed over and stay. -/
theorem State.nextTurn_held {s : State} {held : List Turn} (h : ∀ turn ∈ held, s.heldTurn turn = true) (turns : List Turn) :
    s.nextTurn (held ++ turns) = (s.nextTurn turns).map fun (turn, others) => (turn, held ++ others) := by
  induction held with
  | nil => simp
  | cons turn held ih =>
    rw [List.forall_mem_cons] at h
    rcases State.heldTurn_iff.1 h.1 with ⟨hd, bytes, rfl⟩ | ⟨hi, rfl⟩
    · simp [State.nextTurn, State.enables, hd, ih h.2, Function.comp_def]
    · simp [State.nextTurn, State.enables, hi, ih h.2, Function.comp_def]

/-- While BUSY, no turn behind a command that holds is taken. -/
theorem State.nextTurn_holding {s : State} (hb : s.fsm = Fsm.busy) {turns : List Turn} (h : holding turns = true) :
    s.nextTurn turns = none := by
  unfold holding at h
  split at h <;> simp_all [State.nextTurn, State.enables]

/-- What the next turn is: none, when the requester holds while BUSY or every turn is held; else the first turn that is not held, with
only held turns before it. A command that is taken is enabled. -/
theorem State.nextTurn_cases (s : State) (hf : s.fsm ≠ Fsm.reserved) (turns : List Turn) :
    (s.nextTurn turns = none ∧
      ((s.fsm = Fsm.busy ∧ holding turns = true) ∨ (s.fsm ≠ Fsm.busy ∧ ∀ turn ∈ turns, s.heldTurn turn = true))) ∨
    ∃ held turn rest, turns = held ++ turn :: rest ∧ (∀ turn ∈ held, s.heldTurn turn = true) ∧
      s.nextTurn turns = some (turn, held ++ rest) ∧ ∀ c, turn = .command c → s.enables c = true := by
  induction turns with
  | nil =>
    refine .inl ⟨rfl, ?_⟩
    by_cases hb : s.fsm = Fsm.busy
    · exact .inl ⟨hb, rfl⟩
    · exact .inr ⟨hb, by simp⟩
  | cons turn turns ih =>
    have now (h : s.nextTurn (turn :: turns) = some (turn, turns)) (hc : ∀ c, turn = .command c → s.enables c = true) :
        ∃ held turn' rest, turn :: turns = held ++ turn' :: rest ∧ (∀ turn ∈ held, s.heldTurn turn = true) ∧
          s.nextTurn (turn :: turns) = some (turn', held ++ rest) ∧ ∀ c, turn' = .command c → s.enables c = true :=
      ⟨[], turn, turns, rfl, by simp, h, hc⟩
    cases turn with
    | pass => exact .inr (now rfl (by simp))
    | setStrictFinalFlag value => exact .inr (now rfl (by simp))
    | command c =>
      by_cases he : s.enables c = true
      · exact .inr (now (by simp [State.nextTurn, he]) (by simpa using he))
      by_cases hb : s.fsm = Fsm.busy
      · refine .inl ⟨by simp [State.nextTurn, he, hb], .inl ⟨hb, ?_⟩⟩
        cases c <;> simp_all [holding]
      have hheld : s.heldTurn (.command c) = true := by
        have := (show ∀ x : BitVec 2, x ≠ 3 → x ≠ 1 → x = 0 ∨ x = 2 by decide) s.fsm hf hb
        cases c <;> simp_all [State.heldTurn]
      have hnext := State.nextTurn_held (s := s) (held := [.command c]) (by simpa using hheld) turns
      rw [List.singleton_append] at hnext
      rcases ih with ⟨hn, ⟨h, -⟩ | ⟨-, hall⟩⟩ | ⟨held, turn, rest, rfl, hall, hn, hc⟩
      · exact absurd h hb
      · exact .inl ⟨by rw [hnext, hn]; rfl, .inr ⟨hb, List.forall_mem_cons.2 ⟨hheld, hall⟩⟩⟩
      · exact .inr ⟨.command c :: held, turn, rest, rfl, List.forall_mem_cons.2 ⟨hheld, hall⟩, by rw [hnext, hn]; rfl, hc⟩

/-! #### One step, by the turn taken -/

/-- A command that is enabled is executed and used up, with only held turns before it. -/
theorem step_command {s : State} {c : Handshake} {held rest : List Turn} (hl : s.Legal) (ha : s.agenda = held ++ .command c :: rest)
    (hheld : ∀ turn ∈ held, s.heldTurn turn = true) (h : s.enables c = true) :
    step s = exec (decodeHandshake c) { s with agenda := held ++ rest } := by
  simp [step, fetch_of_legal hl, fetchTurn, ha, State.nextTurn_held hheld, State.nextTurn, h]

/-- A turn of the environment is executed and used up, with only held turns before it. -/
theorem step_setStrictFinalFlag {s : State} {value : Bool} {held rest : List Turn} (hl : s.Legal)
    (ha : s.agenda = held ++ .setStrictFinalFlag value :: rest) (hheld : ∀ turn ∈ held, s.heldTurn turn = true) :
    step s = setStrictFinalFlag value { s with agenda := held ++ rest } := by
  simp [step, fetch_of_legal hl, fetchTurn, ha, State.nextTurn_held hheld, State.nextTurn]

/-- A BUSY block whose requester holds executes its phase. -/
theorem step_busy {s : State} {code : BitVec 4} (hb : s.fsm = Fsm.busy) (hs : s.status ≠ some Status.reserved)
    (hp : s.phase = some code) (h : holding s.agenda = true) : step s = runPhase code s := by
  by_cases hc : Phase.ser < code
  · rw [runPhase_reserved hc]
    exact step_of_reserved (State.reservedValue_of_phase (by simp [hb]) hs hp hc)
  · rw [step, fetch_of_legal ⟨by simp [hb], hs, by simpa [hp, BitVec.not_lt] using hc⟩, fetchTurn, State.nextTurn_holding hb h]
    simp only [fetchPhase, hb, if_true, hp, runPhase_eq_exec]

/-- A BUSY block whose requester passes executes its phase, and the turn is used up. -/
theorem step_busy_pass {s : State} {code : BitVec 4} {rest : List Turn} (hb : s.fsm = Fsm.busy)
    (hs : s.status ≠ some Status.reserved) (hp : s.phase = some code) (h : s.agenda = .pass :: rest) :
    step s = runPhase code { s with agenda := rest } := by
  by_cases hc : Phase.ser < code
  · rw [runPhase_reserved hc]
    exact step_of_reserved (State.reservedValue_of_phase (by simp [hb]) hs hp hc)
  · rw [step, fetch_of_legal ⟨by simp [hb], hs, by simpa [hp, BitVec.not_lt] using hc⟩, fetchTurn, h]
    simp only [State.nextTurn, fetchPhase, hb, if_true, hp, runPhase_eq_exec]

/-- A block that is not BUSY stays as it is when every turn is held. -/
theorem step_held {s : State} (hl : s.Legal) (hb : s.fsm ≠ Fsm.busy) (h : ∀ turn ∈ s.agenda, s.heldTurn turn = true) :
    step s = .next s := by
  have := State.nextTurn_held h []
  rw [List.append_nil] at this
  simp only [step, fetch_of_legal hl, fetchTurn, this, State.nextTurn, Option.map_none, fetchPhase, if_neg hb]

/-- A block that is not BUSY uses up a pass and changes nothing else. -/
theorem step_held_pass {s : State} {held rest : List Turn} (hl : s.Legal) (hb : s.fsm ≠ Fsm.busy)
    (ha : s.agenda = held ++ .pass :: rest) (h : ∀ turn ∈ held, s.heldTurn turn = true) :
    step s = .next { s with agenda := held ++ rest } := by
  simp only [step, fetch_of_legal hl, fetchTurn, ha, State.nextTurn_held h, State.nextTurn, Option.map_some, fetchPhase, if_neg hb]

theorem sequencerStep_busy {s : State} {code : BitVec 4} (hb : s.fsm = Fsm.busy) (hp : s.phase = some code) :
    sequencerStep s = runPhase code s := by
  simp [sequencerStep, readFsm_busy hb, hp]

end Sys2Proof.Machine
end

