-- ==== Sys2Proof/Laws/Flight.lean ====
section
/-! SUPPORT. A transaction in flight: what one phase does to it, said once, with the number of steps that remain. -/

namespace Sys2Proof.Machine

/-- The steps from a phase of round `i` to DONE, for a request that CHK admits (40_transaction.md R109). -/
def stepsFrom (code : BitVec 4) (rounds i : Nat) : Nat :=
  match code.toNat with
  | 0x0 => 5 + 6 * rounds
  | 0x1 => 4 + 6 * rounds
  | 0x2 => 3 + 6 * rounds
  | 0x9 => 2
  | 0xA => 1
  | c => 6 * (rounds - i) + 5 - c

/-- The steps that remain until DONE (40_transaction.md R109). -/
def remaining (bytes : List Byte) (s : State) : Nat :=
  match decodePayload bytes with
  | none => 1
  | some p =>
    if s.strict && rejectsFinalByte p.f then 1 else stepsFrom (s.phase.getD 0) p.rounds.toNat (s.i.getD 0).toNat

theorem remaining_chk {bytes : List Byte} {s : State} (h : s.phase = some Phase.chk) :
    remaining bytes s = Reference.steps s.strict bytes := by
  unfold remaining Reference.steps
  cases decodePayload bytes with
  | none => rfl
  | some p => simp [h, stepsFrom]

/-- What the steps that remain are for a request that CHK admits. -/
theorem remaining_admitted {bytes : List Byte} {s : State} {p : Payload} {code : BitVec 4}
    (hp : decodePayload bytes = some p) (ha : admits s.strict p.f = true) (hc : s.phase = some code) :
    remaining bytes s = stepsFrom code p.rounds.toNat (s.i.getD 0).toNat := by
  have : (s.strict && rejectsFinalByte p.f) = false := by
    rw [admits, Bool.not_eq_true'] at ha
    exact ha
  simp only [remaining, hp, this, hc, Option.getD_some, Bool.false_eq_true, if_false]

/-- One step less, from the phases before and after. -/
theorem remaining_succ {bytes : List Byte} {s t : State} {p : Payload} {c d : BitVec 4}
    (hp : decodePayload bytes = some p) (ha : admits s.strict p.f = true) (hst : t.strict = s.strict)
    (hc : s.phase = some c) (hd : t.phase = some d)
    (h : stepsFrom c p.rounds.toNat (s.i.getD 0).toNat = stepsFrom d p.rounds.toNat (t.i.getD 0).toNat + 1) :
    remaining bytes s = remaining bytes t + 1 := by
  rw [remaining_admitted hp ha hc, remaining_admitted hp (by rw [hst]; exact ha) hd, h]

/-- The latched bytes of a request of 213 bytes are in IN. -/
theorem State.HoldsRequest.read {s : State} {bytes : List Byte} (h : s.HoldsRequest bytes) (hlen : bytes.length = 213) :
    ∀ j, j < 213 → s.inBuf.read j = bytes[j]? := fun j hj => by
  rw [h.2, Memory.read_writeAll, if_pos (by simp [hlen]; omega), List.getElem?_take_of_lt (by simpa using hj)]
  simp

theorem vectorBefore_isSome {p : Payload} {n : Nat} {code : BitVec 4} (h : (vectorBefore p n code).isSome = true) :
    code = 0x3 ∨ code = 0x4 ∨ code = 0x5 ∨ code = 0x6 ∨ code = 0x7 ∨ code = 0x8 := by
  have key : ∀ c : BitVec 4, (match c.toNat with
      | 0x3 => true | 0x4 => true | 0x5 => true | 0x6 => true | 0x7 => true | 0x8 => true | _ => false) = true →
      c = 0x3 ∨ c = 0x4 ∨ c = 0x5 ∨ c = 0x6 ∨ c = 0x7 ∨ c = 0x8 := by decide
  refine key code ?_
  unfold vectorBefore at h
  simp only at h
  split at h <;> simp_all

/-- A phase that stays in its round: the next phase of the round finds the V it needs. -/
theorem round_inner {s : State} {bytes : List Byte} {p : Payload} {n : Nat} {c d : BitVec 4} {x : Vector Word 16}
    (hb : s.fsm = Fsm.busy) (hr : s.HoldsRequest bytes) (hout : s.outBuf = []) (hst : s.status = none)
    (hp : decodePayload bytes = some p) (ha : admits s.strict p.f = true) (hf : s.HoldsFields p) (hh : s.hout = none)
    (hn : n < p.rounds.toNat) (hi : s.i = some (BitVec.ofNat 32 n)) (hc : s.phase = some c)
    (hrun : runPhase c s = .next { s with v := some x, phase := some d }) (hx : vectorBefore p n d = some x)
    (hd : stepsFrom c p.rounds.toNat n = stepsFrom d p.rounds.toNat n + 1) :
    ∃ t, runPhase c s = .next t ∧ t.strict = s.strict ∧ t.agenda = s.agenda ∧ t.delivered = s.delivered ∧
      t.fsm = Fsm.busy ∧ t.InFlight bytes ∧ remaining bytes s = remaining bytes t + 1 := by
  have hin : (BitVec.ofNat 32 n).toNat = n := by
    rw [BitVec.toNat_ofNat, Nat.mod_eq_of_lt (Nat.lt_trans hn p.rounds.isLt)]
  refine ⟨_, hrun, rfl, rfl, rfl, hb, ⟨hr, hout, hst, .inr ⟨p, hp, ha, .inr ⟨hf, .inr (.inl
    ⟨hh, n, d, hn, hi, rfl, rfl, hx.symm⟩)⟩⟩⟩, remaining_succ hp ha rfl hc rfl ?_⟩
  simpa only [hi, Option.getD_some, hin] using hd

/-- One phase of a round keeps the transaction in flight. -/
theorem round_step {s : State} {bytes : List Byte} {p : Payload} {n : Nat} {code : BitVec 4} (hb : s.fsm = Fsm.busy)
    (hr : s.HoldsRequest bytes) (hout : s.outBuf = []) (hst : s.status = none) (hp : decodePayload bytes = some p)
    (ha : admits s.strict p.f = true) (hf : s.HoldsFields p) (hh : s.hout = none) (hn : n < p.rounds.toNat)
    (hi : s.i = some (BitVec.ofNat 32 n)) (hc : s.phase = some code) (hv : s.v.isSome) (hv' : s.v = vectorBefore p n code) :
    ∃ t, runPhase code s = .next t ∧ t.strict = s.strict ∧ t.agenda = s.agenda ∧ t.delivered = s.delivered ∧
      t.fsm = Fsm.busy ∧ t.InFlight bytes ∧ remaining bytes s = remaining bytes t + 1 := by
  have hlt : n < 2 ^ 32 := Nat.lt_trans hn p.rounds.isLt
  have inner {d : BitVec 4} {x : Vector Word 16} :=
    round_inner (d := d) (x := x) hb hr hout hst hp ha hf hh hn hi hc
  obtain ⟨f1, f2, f3, f4, f5⟩ := hf
  rcases vectorBefore_isSome (hv' ▸ hv) with h | h | h | h | h | h <;> subst h
  · exact inner (mixPhase_eq (hv'.trans rfl) f3 hi g1cValue Phase.g2c) rfl (by simp [stepsFrom])
  · exact inner (mixPhase_eq (hv'.trans rfl) f3 hi g2cValue Phase.diag) rfl (by simp [stepsFrom])
  · exact inner (execPhaseDiag_eq (hv'.trans rfl)) rfl (by simp [stepsFrom]; omega)
  · exact inner (mixPhase_eq (hv'.trans rfl) f3 hi g1dValue Phase.g2d) rfl (by simp [stepsFrom]; omega)
  · exact inner (mixPhase_eq (hv'.trans rfl) f3 hi g2dValue Phase.undiag) rfl (by simp [stepsFrom]; omega)
  · have hrun := execPhaseUndiag_eq (hv'.trans rfl) hi f1
    have hin : (BitVec.ofNat 32 n).toNat = n := by rw [BitVec.toNat_ofNat, Nat.mod_eq_of_lt hlt]
    rw [hin] at hrun
    by_cases hlast : n + 1 < p.rounds.toNat
    · rw [if_pos hlast] at hrun
      refine ⟨_, hrun, rfl, rfl, rfl, hb,
        ⟨hr, hout, hst, .inr ⟨p, hp, ha, .inr ⟨⟨f1, f2, f3, f4, f5⟩, .inr (.inl
          ⟨hh, n + 1, Phase.g1c, hlast, ?_, rfl, rfl, rfl⟩)⟩⟩⟩, ?_⟩
      · exact congrArg some (BitVec.ofNat_add n 1).symm
      · have hj : (BitVec.ofNat 32 n + 1).toNat = n + 1 := by
          rw [BitVec.toNat_add, hin]
          exact Nat.mod_eq_of_lt (Nat.lt_trans hlast p.rounds.isLt)
        refine remaining_succ hp ha rfl hc rfl ?_
        simp only [stepsFrom, hi, Option.getD_some, hin, hj]
        simp
        omega
    · rw [if_neg hlast] at hrun
      have hr1 : p.rounds.toNat = n + 1 := by omega
      have hne : p.rounds ≠ 0 := fun h => by rw [h] at hr1; simp at hr1
      refine ⟨_, hrun, rfl, rfl, rfl, hb,
        ⟨hr, hout, hst, .inr ⟨p, hp, ha, .inr ⟨⟨f1, f2, f3, f4, f5⟩, .inr (.inr (.inl
          ⟨rfl, ?_, ?_, hh⟩))⟩⟩⟩, ?_⟩
      · show s.i = lastRound p
        rw [hi, lastRound, if_neg hne]
        refine congrArg some (BitVec.eq_of_toNat_eq ?_)
        rw [hin, BitVec.toNat_sub_of_le (by rw [BitVec.le_def, hr1]; simp), hr1]
        simp
      · show some _ = some (Reference.mixed p)
        rw [Reference.mixed, hr1]
        rfl
      · refine remaining_succ hp ha rfl hc rfl ?_
        simp only [stepsFrom, hi, Option.getD_some, hin, hr1]
        simp

/-- One phase of a transaction in flight: it stays in flight with one step less to go, or its response is ready. -/
theorem inFlight_step {s : State} {bytes : List Byte} {code : BitVec 4} (hb : s.fsm = Fsm.busy) (h : s.InFlight bytes)
    (hc : s.phase = some code) :
    ∃ t, runPhase code s = .next t ∧ t.strict = s.strict ∧ t.agenda = s.agenda ∧ t.delivered = s.delivered ∧
      ((t.fsm = Fsm.busy ∧ t.InFlight bytes ∧ remaining bytes s = remaining bytes t + 1) ∨
        (t.fsm = Fsm.done ∧ t.Answered bytes ∧ remaining bytes s = 1)) := by
  obtain ⟨hr, hout, hst, hcase⟩ := h
  rcases hcase with ⟨hph, hnf, hnw⟩ | ⟨p, hp, ha, hcase⟩
  · obtain rfl : code = Phase.chk := Option.some.inj (hc.symm.trans hph)
    by_cases hlen : bytes.length = 213
    · obtain ⟨p, hp⟩ := decodePayload_isSome hlen
      have hread : s.inBuf.read 212 = some p.f := by
        rw [hr.read hlen 212 (by omega)]
        have := hp
        rw [decodePayload, if_pos hlen] at this
        rw [← Option.some.inj this, List.getElem?_eq_getElem (by omega)]
        simp [List.getD, List.getElem?_eq_getElem (show 212 < bytes.length by omega)]
      have hl : s.inLen = some 213 := hr.1.trans (by rw [hlen])
      cases hs : s.strict with
      | false =>
        have ha : admits s.strict p.f = true := by simp [admits, hs]
        refine ⟨_, execPhaseChk_lax hl hs, rfl.trans hs, rfl, rfl, .inl ⟨hb, ⟨hr, hout, hst, .inr ⟨p, hp, ha, .inl
          ⟨rfl, hnf, hnw⟩⟩⟩, ?_⟩⟩
        refine remaining_succ hp ha rfl hph rfl ?_
        simp [stepsFrom]
        omega
      | true =>
        have hrun := execPhaseChk_strict hl hs hread
        by_cases hrej : rejectsFinalByte p.f = true
        · rw [if_pos hrej] at hrun
          refine ⟨_, hrun, hs, rfl, rfl, .inr ⟨rfl, ⟨hr, .inl ⟨hout, hph, hnf, hnw, ?_, ?_⟩⟩, ?_⟩⟩
          · simp
          · simp [Reference.response, hp, hs, hrej]
          · simp [remaining, hp, hs, hrej]
        · rw [if_neg hrej] at hrun
          have ha : admits s.strict p.f = true := by simp [admits, hrej]
          refine ⟨_, hrun, hs, rfl, rfl, .inl ⟨hb, ⟨hr, hout, hst, .inr ⟨p, hp, ha, .inl ⟨rfl, hnf, hnw⟩⟩⟩, ?_⟩⟩
          refine remaining_succ hp ha rfl hph rfl ?_
          simp [stepsFrom]
          omega
    · refine ⟨_, execPhaseChk_wrong_length hr.1 hlen, rfl, rfl, rfl, .inr ⟨rfl, ⟨hr, .inl
        ⟨hout, hph, hnf, hnw, ?_, ?_⟩⟩, ?_⟩⟩
      · simp
      · simp [Reference.response, decodePayload_eq_none hlen]
      · simp [remaining, decodePayload_eq_none hlen]
  · have hlen := length_of_decodePayload hp
    rcases hcase with ⟨hph, hnf, hnw⟩ | ⟨hf, hcase⟩
    · obtain rfl : code = Phase.dec := Option.some.inj (hc.symm.trans hph)
      refine ⟨_, execPhaseDec_of_read hp (hr.read hlen), rfl, rfl, rfl, .inl ⟨hb, ⟨hr, hout, hst, .inr ⟨p, hp, ha, .inr
        ⟨⟨rfl, rfl, rfl, rfl, rfl⟩, .inl ⟨rfl, hnw⟩⟩⟩⟩, ?_⟩⟩
      refine remaining_succ hp ha rfl hph rfl ?_
      simp [stepsFrom]
      omega
    · obtain ⟨f1, f2, f3, f4, f5⟩ := hf
      rcases hcase with ⟨hph, hnw⟩ | ⟨hh, n, c, hn, hi, hph, hv, hv'⟩ | ⟨hph, hi, hv, hh⟩ | ⟨hph, hi, hv, hh⟩
      · obtain rfl : code = Phase.init := Option.some.inj (hc.symm.trans hph)
        have hrun := execPhaseInit_eq f2 f4 f5 f1
        by_cases h0 : p.rounds = 0
        · rw [if_pos h0] at hrun
          refine ⟨_, hrun, rfl, rfl, rfl, .inl ⟨hb, ⟨hr, hout, hst, .inr ⟨p, hp, ha, .inr
            ⟨⟨f1, f2, f3, f4, f5⟩, .inr (.inr (.inl ⟨rfl, ?_, ?_, hnw.2.2⟩))⟩⟩⟩, ?_⟩⟩
          · simp [lastRound, h0, hnw.2.1]
          · simp [Reference.mixed, h0, Reference.rounds]
          · refine remaining_succ hp ha rfl hph rfl ?_
            simp [stepsFrom, h0]
        · rw [if_neg h0] at hrun
          have hpos : 0 < p.rounds.toNat := by
            rcases Nat.eq_zero_or_pos p.rounds.toNat with h | h
            · exact absurd (BitVec.eq_of_toNat_eq (by simpa using h)) h0
            · exact h
          refine ⟨_, hrun, rfl, rfl, rfl, .inl ⟨hb, ⟨hr, hout, hst, .inr ⟨p, hp, ha, .inr
            ⟨⟨f1, f2, f3, f4, f5⟩, .inr (.inl ⟨hnw.2.2, 0, Phase.g1c, hpos, rfl, rfl, rfl, rfl⟩)⟩⟩⟩, ?_⟩⟩
          refine remaining_succ hp ha rfl hph rfl ?_
          simp [stepsFrom]
          omega
      · obtain rfl : code = c := Option.some.inj (hc.symm.trans hph)
        obtain ⟨t, h1, h2, h3, h4, h5, h6, h7⟩ :=
          round_step hb hr hout hst hp ha ⟨f1, f2, f3, f4, f5⟩ hh hn hi hph hv hv'
        exact ⟨t, h1, h2, h3, h4, .inl ⟨h5, h6, h7⟩⟩
      · obtain rfl : code = Phase.fin := Option.some.inj (hc.symm.trans hph)
        refine ⟨_, execPhaseFin_eq f2 hv, rfl, rfl, rfl, .inl ⟨hb, ⟨hr, hout, hst, .inr ⟨p, hp, ha, .inr
          ⟨⟨f1, f2, f3, f4, f5⟩, .inr (.inr (.inr ⟨rfl, hi, hv, rfl⟩))⟩⟩⟩, ?_⟩⟩
        refine remaining_succ hp ha rfl hph rfl ?_
        simp [stepsFrom]
      · obtain rfl : code = Phase.ser := Option.some.inj (hc.symm.trans hph)
        refine ⟨_, execPhaseSer_eq hh, rfl, rfl, rfl, .inr ⟨rfl, ⟨hr, .inr ⟨p, hp, ha, ⟨f1, f2, f3, f4, f5⟩, hph, hi, hv, hh,
          ?_, rfl⟩⟩, ?_⟩⟩
        · simp [hout]
        · rw [remaining_admitted hp ha hph]
          simp [stepsFrom]

end Sys2Proof.Machine
end

