-- ==== Sys2Proof/Laws/Frames.lean ====
section
/-! SUPPORT. What a phase leaves alone, said once for all phases, and the induction over the phases of a transaction. -/

namespace Sys2Proof.Machine

/-- What no phase changes, and what it can do to OUT. -/
structure PhaseFrame (s t : State) : Prop where
  inBuf : t.inBuf = s.inBuf
  inLen : t.inLen = s.inLen
  strict : t.strict = s.strict
  agenda : t.agenda = s.agenda
  delivered : t.delivered = s.delivered
  outBuf : t.outBuf = s.outBuf ∨ ∃ x, t.outBuf = s.outBuf.writeAll 0 (serValue x)

/-- What no phase but DEC changes. -/
structure FieldFrame (s t : State) : Prop where
  keepsRounds : t.rounds = s.rounds
  keepsH : t.h = s.h
  keepsM : t.m = s.m
  keepsT : t.t = s.t
  keepsF : t.f = s.f

theorem execPhaseChk_frame {s t : State} (h : execPhaseChk s = .next t) : PhaseFrame s t ∧ FieldFrame s t := by
  obtain ⟨len, -, h⟩ := readReg_next h
  split at h
  · cases h; exact ⟨⟨rfl, rfl, rfl, rfl, rfl, .inl rfl⟩, ⟨rfl, rfl, rfl, rfl, rfl⟩⟩
  · split at h
    · obtain ⟨bs, -, -, h⟩ := memRead_next h
      split at h <;> cases h <;> exact ⟨⟨rfl, rfl, rfl, rfl, rfl, .inl rfl⟩, ⟨rfl, rfl, rfl, rfl, rfl⟩⟩
    · cases h; exact ⟨⟨rfl, rfl, rfl, rfl, rfl, .inl rfl⟩, ⟨rfl, rfl, rfl, rfl, rfl⟩⟩

theorem execPhaseDec_frame {s t : State} (h : execPhaseDec s = .next t) : PhaseFrame s t := by
  obtain ⟨bs, -, -, h⟩ := memRead_next h
  split at h
  · cases h; exact ⟨rfl, rfl, rfl, rfl, rfl, .inl rfl⟩
  · cases h

theorem execPhaseInit_frame {s t : State} (h : execPhaseInit s = .next t) : PhaseFrame s t ∧ FieldFrame s t := by
  obtain ⟨_, -, h⟩ := readReg_next h
  obtain ⟨_, -, h⟩ := readReg_next h
  obtain ⟨_, -, h⟩ := readReg_next h
  obtain ⟨_, -, h⟩ := readReg_next h
  split at h <;> cases h <;> exact ⟨⟨rfl, rfl, rfl, rfl, rfl, .inl rfl⟩, ⟨rfl, rfl, rfl, rfl, rfl⟩⟩

/-- What a half-mix phase writes. -/
theorem mixPhase_next {value : Vector Word 16 → BitVec 32 → Vector Word 16 → Vector Word 16} {next : BitVec 4} {s t : State}
    (h : mixPhase value next s = .next t) : ∃ v i m, { s with v := some (value m i v), phase := some next } = t := by
  obtain ⟨v, -, h⟩ := readReg_next h
  obtain ⟨m, -, h⟩ := readReg_next h
  obtain ⟨i, -, h⟩ := readReg_next h
  exact ⟨v, i, m, Host.Outcome.next.inj h⟩

theorem mixPhase_frame {value : Vector Word 16 → BitVec 32 → Vector Word 16 → Vector Word 16} {next : BitVec 4} {s t : State}
    (h : mixPhase value next s = .next t) : PhaseFrame s t ∧ FieldFrame s t := by
  obtain ⟨_, _, _, rfl⟩ := mixPhase_next h
  exact ⟨⟨rfl, rfl, rfl, rfl, rfl, .inl rfl⟩, ⟨rfl, rfl, rfl, rfl, rfl⟩⟩

theorem execPhaseDiag_frame {s t : State} (h : execPhaseDiag s = .next t) : PhaseFrame s t ∧ FieldFrame s t := by
  obtain ⟨_, -, h⟩ := readReg_next h
  cases h; exact ⟨⟨rfl, rfl, rfl, rfl, rfl, .inl rfl⟩, ⟨rfl, rfl, rfl, rfl, rfl⟩⟩

theorem execPhaseUndiag_frame {s t : State} (h : execPhaseUndiag s = .next t) : PhaseFrame s t ∧ FieldFrame s t := by
  obtain ⟨_, -, h⟩ := readReg_next h
  obtain ⟨_, -, h⟩ := readReg_next h
  obtain ⟨_, -, h⟩ := readReg_next h
  split at h <;> cases h <;> exact ⟨⟨rfl, rfl, rfl, rfl, rfl, .inl rfl⟩, ⟨rfl, rfl, rfl, rfl, rfl⟩⟩

theorem execPhaseFin_frame {s t : State} (h : execPhaseFin s = .next t) : PhaseFrame s t ∧ FieldFrame s t := by
  obtain ⟨_, -, h⟩ := readReg_next h
  obtain ⟨_, -, h⟩ := readReg_next h
  cases h; exact ⟨⟨rfl, rfl, rfl, rfl, rfl, .inl rfl⟩, ⟨rfl, rfl, rfl, rfl, rfl⟩⟩

theorem execPhaseSer_frame {s t : State} (h : execPhaseSer s = .next t) : PhaseFrame s t ∧ FieldFrame s t := by
  obtain ⟨x, -, h⟩ := readReg_next h
  obtain ⟨-, h⟩ := memWrite_next h
  cases h; exact ⟨⟨rfl, rfl, rfl, rfl, rfl, .inr ⟨x, rfl⟩⟩, ⟨rfl, rfl, rfl, rfl, rfl⟩⟩

/-- A phase, whichever it is. -/
theorem runPhase_frame {code : BitVec 4} {s t : State} (h : runPhase code s = .next t) :
    PhaseFrame s t ∧ (code ≠ Phase.dec → FieldFrame s t) := by
  unfold runPhase at h
  split at h
  · exact ⟨(execPhaseChk_frame h).1, fun _ => (execPhaseChk_frame h).2⟩
  · rename_i hc
    exact ⟨execPhaseDec_frame h, fun hne => absurd (BitVec.eq_of_toNat_eq hc) hne⟩
  · exact ⟨(execPhaseInit_frame h).1, fun _ => (execPhaseInit_frame h).2⟩
  · exact ⟨(mixPhase_frame h).1, fun _ => (mixPhase_frame h).2⟩
  · exact ⟨(mixPhase_frame h).1, fun _ => (mixPhase_frame h).2⟩
  · exact ⟨(execPhaseDiag_frame h).1, fun _ => (execPhaseDiag_frame h).2⟩
  · exact ⟨(mixPhase_frame h).1, fun _ => (mixPhase_frame h).2⟩
  · exact ⟨(mixPhase_frame h).1, fun _ => (mixPhase_frame h).2⟩
  · exact ⟨(execPhaseUndiag_frame h).1, fun _ => (execPhaseUndiag_frame h).2⟩
  · exact ⟨(execPhaseFin_frame h).1, fun _ => (execPhaseFin_frame h).2⟩
  · exact ⟨(execPhaseSer_frame h).1, fun _ => (execPhaseSer_frame h).2⟩
  · cases h

/-- Where a phase goes on: the transaction is DONE, or FSM stays and PHASE names another phase. -/
theorem runPhase_advances {code : BitVec 4} {s t : State} (h : runPhase code s = .next t) :
    t.fsm = Fsm.done ∨ (t.fsm = s.fsm ∧ ∃ next, t.phase = some next ∧ next ≠ code) := by
  have other {n : Nat} (hc : code.toNat = n) (next : BitVec 4) (hn : next.toNat ≠ n) : next ≠ code := by
    rintro rfl
    exact hn hc
  unfold runPhase at h
  split at h <;> rename_i hc
  · obtain ⟨_, -, h⟩ := readReg_next h
    split at h
    · cases h; exact .inl rfl
    · split at h
      · obtain ⟨_, -, -, h⟩ := memRead_next h
        split at h <;> cases h
        · exact .inl rfl
        · exact .inr ⟨rfl, _, rfl, other hc _ (by decide)⟩
      · cases h; exact .inr ⟨rfl, _, rfl, other hc _ (by decide)⟩
  · obtain ⟨_, -, -, h⟩ := memRead_next h
    split at h <;> cases h
    exact .inr ⟨rfl, _, rfl, other hc _ (by decide)⟩
  · obtain ⟨_, -, h⟩ := readReg_next h
    obtain ⟨_, -, h⟩ := readReg_next h
    obtain ⟨_, -, h⟩ := readReg_next h
    obtain ⟨_, -, h⟩ := readReg_next h
    split at h <;> cases h <;> exact .inr ⟨rfl, _, rfl, other hc _ (by decide)⟩
  · obtain ⟨v, i, m, h⟩ := mixPhase_next h
    subst h; exact .inr ⟨rfl, _, rfl, other hc _ (by decide)⟩
  · obtain ⟨v, i, m, h⟩ := mixPhase_next h
    subst h; exact .inr ⟨rfl, _, rfl, other hc _ (by decide)⟩
  · obtain ⟨_, -, h⟩ := readReg_next h
    cases h; exact .inr ⟨rfl, _, rfl, other hc _ (by decide)⟩
  · obtain ⟨v, i, m, h⟩ := mixPhase_next h
    subst h; exact .inr ⟨rfl, _, rfl, other hc _ (by decide)⟩
  · obtain ⟨v, i, m, h⟩ := mixPhase_next h
    subst h; exact .inr ⟨rfl, _, rfl, other hc _ (by decide)⟩
  · obtain ⟨_, -, h⟩ := readReg_next h
    obtain ⟨_, -, h⟩ := readReg_next h
    obtain ⟨_, -, h⟩ := readReg_next h
    split at h <;> cases h <;> exact .inr ⟨rfl, _, rfl, other hc _ (by decide)⟩
  · obtain ⟨_, -, h⟩ := readReg_next h
    obtain ⟨_, -, h⟩ := readReg_next h
    cases h; exact .inr ⟨rfl, _, rfl, other hc _ (by decide)⟩
  · obtain ⟨_, -, h⟩ := readReg_next h
    obtain ⟨-, h⟩ := memWrite_next h
    cases h; exact .inl rfl
  · cases h

/-- What every phase keeps, the sequencer's steps keep. -/
theorem sequencerSteps_induct {P : State → Prop} (hstep : ∀ code s t, P s → runPhase code s = .next t → P t) {n : Nat} :
    ∀ {s t : State}, P s → sequencerSteps n s = .next t → P t := by
  induction n with
  | zero => intro s t hs h; cases h; exact hs
  | succ n ih =>
    intro s t hs h
    rw [sequencerSteps] at h
    split at h
    · rename_i hb
      obtain ⟨u, hu, h⟩ := andThen_eq_next h
      rw [sequencerStep, readFsm_busy hb, if_pos rfl] at hu
      obtain ⟨code, -, hu⟩ := readReg_next hu
      exact ih (hstep code s u hs hu) h
    · cases h; exact hs

/-- What acceptance and every phase keep, a request row keeps. -/
theorem transact_induct {P : State → Prop} (haccept : ∀ bytes s t, P s → accept bytes s = .next t → P t)
    (hstep : ∀ code s t, P s → runPhase code s = .next t → P t) {bytes : List Byte} {s t : State} (hs : P s)
    (h : transact bytes s = .next t) : P t := by
  obtain ⟨-, h⟩ := readFsm_next h
  split at h
  · obtain ⟨u, hu, h⟩ := andThen_eq_next h
    exact sequencerSteps_induct hstep (haccept bytes s u hs hu) h
  · cases h; exact hs

/-- CONSUME does nothing, or ends the transaction with something delivered. -/
theorem execConsume_next {s t : State} (h : execConsume s = .next t) :
    t = s ∨ ∃ d, t = { s.endTransaction with delivered := d } := by
  obtain ⟨-, h⟩ := readFsm_next h
  split at h
  · obtain ⟨c, -, h⟩ := readReg_next h
    split at h
    · cases h
    · simp only at h
      split at h
      · obtain ⟨_, -, -, h⟩ := memRead_next h
        cases h; exact .inr ⟨_, rfl⟩
      · cases h; exact .inr ⟨_, rfl⟩
  · cases h; exact .inl rfl

/-- What acceptance, every phase, CONSUME and the end of a transaction keep, every instruction keeps. -/
theorem exec_induct {P : State → Prop} (i : Instr) {s t : State} (haccept : ∀ bytes s t, P s → accept bytes s = .next t → P t)
    (hstep : ∀ code s t, P s → runPhase code s = .next t → P t) (hconsume : i = .consume → P t)
    (hreset : P s.endTransaction) (hs : P s) (h : exec i s = .next t) : P t := by
  cases i
  case blake2f => exact transact_induct haccept hstep hs h
  case blake2fStrict => exact transact_induct haccept hstep hs h
  case invalidInputLength => exact transact_induct haccept hstep hs h
  case invalidFinalFlag => exact transact_induct haccept hstep hs h
  case blake2bBlock => exact transact_induct haccept hstep hs h
  case blake2fZero => exact transact_induct haccept hstep hs h
  case phaseChk => exact hstep Phase.chk s t hs h
  case phaseDec => exact hstep Phase.dec s t hs h
  case phaseInit => exact hstep Phase.init s t hs h
  case phaseG1c => exact hstep Phase.g1c s t hs h
  case phaseG2c => exact hstep Phase.g2c s t hs h
  case phaseDiag => exact hstep Phase.diag s t hs h
  case phaseG1d => exact hstep Phase.g1d s t hs h
  case phaseG2d => exact hstep Phase.g2d s t hs h
  case phaseUndiag => exact hstep Phase.undiag s t hs h
  case phaseFin => exact hstep Phase.fin s t hs h
  case phaseSer => exact hstep Phase.ser s t hs h
  case phaseReserved => cases h
  case submit bytes =>
    change execSubmit bytes s = .next t at h
    obtain ⟨-, h⟩ := readFsm_next h
    split at h
    · exact haccept _ _ _ hs h
    · cases h; exact hs
  case consume => exact hconsume rfl
  case reset => cases h; exact hreset

end Sys2Proof.Machine
end

