-- ==== Sys2Proof/Laws/Run.lean ====
section
/-! SUPPORT. Runs of a transaction: from acceptance to DONE, as steps of the machine and as one request row. -/

namespace Sys2Proof.Machine

/-- `k` steps of the machine. -/
abbrev run (k : Nat) (s : State) : Out := Host.Core.run Sys2Proof.core k s

@[simp] theorem run_zero (s : State) : run 0 s = .next s := rfl

theorem coreRun_next {M : Host.Core} {s t : M.State} (k : Nat) (h : M.step s = .next t) : M.run (k + 1) s = M.run k t := by
  simp only [Host.Core.run, h]

theorem coreRun_fault {M : Host.Core} {s : M.State} {r : M.Fault} (k : Nat) (h : M.step s = .fault r) :
    M.run (k + 1) s = .fault r := by
  simp only [Host.Core.run, h]

theorem coreRun_refused {M : Host.Core} {s : M.State} {r : M.Refusal} (k : Nat) (h : M.step s = .refused r) :
    M.run (k + 1) s = .refused r := by
  simp only [Host.Core.run, h]

theorem run_succ (k : Nat) (s : State) : run (k + 1) s = andThen (step s) (run k) := by
  cases h : step s with
  | next t => exact coreRun_next (M := Sys2Proof.core) k h
  | fault r => exact coreRun_fault (M := Sys2Proof.core) k h
  | refused r => exact coreRun_refused (M := Sys2Proof.core) k h

theorem run_add (j k : Nat) (s : State) : run (j + k) s = andThen (run j s) (run k) := by
  induction j generalizing s with
  | zero => simp
  | succ j ih =>
    rw [Nat.add_right_comm, run_succ, run_succ]
    cases step s with
    | next t => exact ih t
    | fault r => rfl
    | refused r => rfl

theorem State.InFlight.phase_isSome {s : State} {bytes : List Byte} (h : s.InFlight bytes) :
    ∃ code, s.phase = some code := by
  obtain ⟨-, -, -, hcase⟩ := h
  rcases hcase with ⟨h, -⟩ | ⟨p, -, -, ⟨h, -⟩ | ⟨-, ⟨h, -⟩ | ⟨-, n, c, -, -, h, -⟩ | ⟨h, -⟩ | ⟨h, -⟩⟩⟩
  all_goals exact ⟨_, h⟩

theorem State.InFlight.phase_legal {s : State} {bytes : List Byte} (h : s.InFlight bytes) : ∀ code ∈ s.phase, code ≤ Phase.ser := by
  obtain ⟨-, -, -, hcase⟩ := h
  rcases hcase with ⟨h, -⟩ | ⟨p, -, -, ⟨h, -⟩ | ⟨-, ⟨h, -⟩ | ⟨-, n, c, -, -, h, hv, hvec⟩ | ⟨h, -⟩ | ⟨h, -⟩⟩⟩
  case inr.inr.inr.inl =>
    rintro _ h'
    obtain rfl : c = _ := Option.some.inj (h.symm.trans h')
    have key : ∀ k : Fin 16, (vectorBefore p n (BitVec.ofNat 4 k)).isSome → BitVec.ofNat 4 k ≤ Phase.ser := fun k => by
      fin_cases k <;> simp [vectorBefore]
    simpa using key ⟨c.toNat, c.isLt⟩ (by simpa [hvec] using hv)
  all_goals simp [h]

/-- The sequencer of a transaction in flight is DONE after the steps that remain, and stays there. -/
theorem sequencerSteps_inFlight {bytes : List Byte} (r : Nat) :
    ∀ {s : State}, s.fsm = Fsm.busy → s.InFlight bytes → remaining bytes s = r →
      ∃ t, (∀ n, r ≤ n → sequencerSteps n s = .next t) ∧ t.fsm = Fsm.done ∧ t.Answered bytes ∧ t.strict = s.strict ∧
        t.agenda = s.agenda ∧ t.delivered = s.delivered ∧
        (holding s.agenda = true →
          run r s = .next t ∧ ∀ k, k < r → ∃ u, run k s = .next u ∧ u.fsm = Fsm.busy ∧ u.InFlight bytes ∧
            remaining bytes u = r - k ∧ u.strict = s.strict) := by
  induction r with
  | zero =>
    intro s hb h hr
    obtain ⟨code, hc⟩ := h.phase_isSome
    obtain ⟨t, -, -, -, -, ⟨-, -, h⟩ | ⟨-, -, h⟩⟩ := inFlight_step hb h hc <;> omega
  | succ r ih =>
    intro s hb h hr
    obtain ⟨code, hc⟩ := h.phase_isSome
    obtain ⟨t, hrun, h1, h2, h3, hcase⟩ := inFlight_step hb h hc
    have hseq (n : Nat) : sequencerSteps (n + 1) s = sequencerSteps n t := by
      rw [sequencerSteps, if_pos hb, sequencerStep_busy hb hc, hrun, andThen_next]
    have hstep (hold : holding s.agenda = true) (k : Nat) : run (k + 1) s = run k t := by
      rw [run_succ, step_busy hb (by simp [h.2.2.1]) hc hold, hrun, andThen_next]
    have hzero : ∃ u, run 0 s = .next u ∧ u.fsm = Fsm.busy ∧ u.InFlight bytes ∧ remaining bytes u = r + 1 - 0 ∧
        u.strict = s.strict := ⟨s, rfl, hb, h, hr, rfl⟩
    rcases hcase with ⟨hb', hfl, hrem⟩ | ⟨hd, hans, hrem⟩
    · obtain ⟨u, hall, hd, hans, g1, g2, g3, hmach⟩ := ih hb' hfl (by omega)
      refine ⟨u, fun n hn => ?_, hd, hans, g1.trans h1, g2.trans h2, g3.trans h3, fun hold => ?_⟩
      · cases n with
        | zero => omega
        | succ n => rw [hseq]; exact hall n (by omega)
      · obtain ⟨hu, hbusy⟩ := hmach (h2 ▸ hold)
        refine ⟨(hstep hold r).trans hu, fun k hk => ?_⟩
        cases k with
        | zero => exact hzero
        | succ k =>
          obtain ⟨u, hu, hub⟩ := hbusy k (by omega)
          exact ⟨u, (hstep hold k).trans hu, by rwa [Nat.add_sub_add_right, ← h1]⟩
    · obtain rfl : r = 0 := by omega
      refine ⟨t, fun n hn => ?_, hd, hans, h1, h2, h3, fun hold => ⟨(hstep hold 0).trans rfl, fun k hk => ?_⟩⟩
      · cases n with
        | zero => omega
        | succ n =>
          rw [hseq]
          cases n with
          | zero => rfl
          | succ n => rw [sequencerSteps, if_neg (by rw [hd]; decide)]
      · obtain rfl : k = 0 := by omega
        exact hzero

/-- A block that is not BUSY takes no sequencer step. -/
theorem sequencerSteps_of_not_busy {s : State} (h : s.fsm ≠ Fsm.busy) (n : Nat) : sequencerSteps n s = .next s := by
  cases n with
  | zero => rfl
  | succ n => rw [sequencerSteps, if_neg h]

/-- Acceptance by a blank block begins a transaction in flight. -/
theorem accept_inFlight {s : State} (h : s.endTransaction = s) (bytes : List Byte) :
    ∃ t, accept bytes s = .next t ∧ t.fsm = Fsm.busy ∧ t.InFlight bytes ∧
      remaining bytes t = Reference.steps s.strict bytes ∧ t.strict = s.strict ∧ t.agenda = s.agenda ∧
      t.delivered = s.delivered := by
  obtain ⟨-, -, -, hin, -, hnf, hnw, hout, hst⟩ := State.blank_of_endTransaction h
  refine ⟨_, accept_eq bytes s, rfl, ⟨⟨rfl, ?_⟩, hout, hst, .inl ⟨rfl, hnf, hnw⟩⟩, remaining_chk rfl, rfl, rfl, rfl⟩
  rw [hin]

theorem stepBound_ge (strict : Bool) (bytes : List Byte) : Reference.steps strict bytes ≤ stepBound bytes := by
  unfold Reference.steps stepBound
  cases decodePayload bytes with
  | none => exact Nat.le_refl _
  | some p => simp only; split <;> omega

/-- A request row from a blank block: the transaction, DONE with its response ready. -/
theorem transact_answers {s : State} (h : s.endTransaction = s) (bytes : List Byte) :
    ∃ t, transact bytes s = .next t ∧ t.fsm = Fsm.done ∧ t.Answered bytes ∧ t.strict = s.strict ∧ t.agenda = s.agenda ∧
      t.delivered = s.delivered := by
  obtain ⟨t, hacc, hb, hfl, hrem, h1, h2, h3⟩ := accept_inFlight h bytes
  obtain ⟨u, hall, hd, hans, g1, g2, g3, -⟩ := sequencerSteps_inFlight _ hb hfl rfl
  refine ⟨u, ?_, hd, hans, g1.trans h1, g2.trans h2, g3.trans h3⟩
  rw [transact, readFsm_idle (State.blank_of_endTransaction h).1, if_pos rfl, hacc, andThen_next]
  exact hall _ (hrem ▸ stepBound_ge s.strict bytes)

/-- The response of a request that CHK rejects carries no bytes. -/
theorem response_of_not_ok {strict : Bool} {bytes : List Byte} (h : (Reference.response strict bytes).status ≠ Status.ok) :
    (Reference.response strict bytes).out = none ∧ (Reference.response strict bytes).status ≠ Status.reserved := by
  unfold Reference.response at h ⊢
  cases hp : decodePayload bytes with
  | none => simp
  | some p =>
    simp only [hp] at h ⊢
    split
    · simp
    · rename_i hr
      rw [if_neg hr] at h
      exact absurd rfl h

theorem response_of_admitted {strict : Bool} {bytes : List Byte} {p : Payload} (hp : decodePayload bytes = some p)
    (ha : admits strict p.f = true) :
    Reference.response strict bytes = { status := Status.ok, out := some (serValue (Reference.compress p)) } := by
  rw [admits, Bool.not_eq_true'] at ha
  simp [Reference.response, hp, ha]

/-- STATUS of a ready response is no reserved value. -/
theorem State.Answered.status_legal {s : State} {bytes : List Byte} (h : s.Answered bytes) :
    s.status ≠ some Status.reserved := by
  obtain ⟨-, ⟨-, -, -, -, hne, hst⟩ | ⟨-, -, -, -, -, -, -, -, -, hst⟩⟩ := h
  · rw [hst] at hne ⊢
    exact fun h => (response_of_not_ok fun h0 => hne (congrArg some h0)).2 (Option.some.inj h)
  · rw [hst]
    simp

/-- No register of a serving block holds a reserved value. -/
theorem State.Inv.legal {s : State} (h : s.Inv) : s.Legal := by
  rcases h with ⟨hf, h⟩ | ⟨hf, bytes, h⟩ | ⟨hf, bytes, h⟩
  · obtain ⟨-, hp, -, -, -, -, -, -, hst⟩ := State.blank_of_endTransaction h
    exact ⟨by simp [hf], by simp [hst], by simp [hp]⟩
  · exact ⟨by simp [hf], by simp [h.2.2.1], h.phase_legal⟩
  · refine ⟨by simp [hf], h.status_legal, ?_⟩
    obtain ⟨-, ⟨-, hp, -⟩ | ⟨-, -, -, -, hp, -⟩⟩ := h <;> simp [hp]

/-- CONSUME delivers a ready response. -/
theorem execConsume_answered {s : State} {bytes : List Byte} (hd : s.fsm = Fsm.done) (h : s.Answered bytes) :
    execConsume s =
      .next { s.endTransaction with delivered := s.delivered ++ [Reference.response s.strict bytes] } := by
  have hlegal := h.status_legal
  obtain ⟨-, ⟨-, -, -, -, hne, hst⟩ | ⟨p, hp, ha, -, -, -, -, -, hout, hst⟩⟩ := h
  · have h0 : (Reference.response s.strict bytes).status ≠ Status.ok := fun h0 => hne (by rw [hst, h0])
    rw [execConsume_error hd hst h0 fun h3 => hlegal (by rw [hst, h3]), ← (response_of_not_ok h0).1]
  · rw [response_of_admitted hp ha]
    refine execConsume_ok hd hst (serValue_length _) fun j hj => ?_
    rw [hout, Memory.read_writeAll, if_pos (by rw [serValue_length]; omega), Nat.sub_zero]

end Sys2Proof.Machine
end

