-- ==== Sys2Proof/Laws/Schedule.lean ====
section
/-! SUPPORT. Where a transaction stands is a function of ROUNDS and of the number of steps that remain: PHASE and I do not depend on
the data (42_mixer.md R163). -/

namespace Sys2Proof.Machine

/-- PHASE and I when `n` steps remain of a transaction that CHK admits. -/
def scheduleAt (r : BitVec 32) (n : Nat) : BitVec 4 × Option (BitVec 32) :=
  let last := if r = 0 then none else some (r - 1)
  if n = 5 + 6 * r.toNat then (Phase.chk, none)
  else if n = 4 + 6 * r.toNat then (Phase.dec, none)
  else if n = 3 + 6 * r.toNat then (Phase.init, none)
  else if n = 2 then (Phase.fin, last)
  else if n = 1 then (Phase.ser, last)
  else (BitVec.ofNat 4 (8 - (n - 3) % 6), some (BitVec.ofNat 32 (r.toNat - 1 - (n - 3) / 6)))

theorem scheduleAt_round {r : BitVec 32} {n c k : Nat} (hn : n < r.toNat) (hc : 3 ≤ c) (hc' : c ≤ 8)
    (hk : k = 6 * (r.toNat - n) + 5 - c) : scheduleAt r k = (BitVec.ofNat 4 c, some (BitVec.ofNat 32 n)) := by
  have h1 : (k - 3) % 6 = 8 - c := by omega
  have h2 : (k - 3) / 6 = r.toNat - 1 - n := by omega
  rw [scheduleAt, if_neg (by omega), if_neg (by omega), if_neg (by omega), if_neg (by omega), if_neg (by omega), h1, h2,
    show 8 - (8 - c) = c by omega, show r.toNat - 1 - (r.toNat - 1 - n) = n by omega]

/-- PHASE and I of a transaction in flight. -/
theorem State.InFlight.schedule {s : State} {bytes : List Byte} {p : Payload} (h : s.InFlight bytes)
    (hp : decodePayload bytes = some p) (ha : admits s.strict p.f = true) :
    s.phase = some (scheduleAt p.rounds (remaining bytes s)).1 ∧ s.i = (scheduleAt p.rounds (remaining bytes s)).2 := by
  obtain ⟨-, -, -, hcase⟩ := h
  rcases hcase with ⟨h, -, hw⟩ | ⟨q, hq, -, hcase⟩
  · rw [remaining_admitted hp ha h]
    simp [stepsFrom, scheduleAt, h, hw.2.1]
  rw [hp] at hq
  cases hq
  rcases hcase with ⟨h, -, hw⟩ | ⟨-, ⟨h, hw⟩ | ⟨-, n, c, hn, hi, hc, hv, hv'⟩ | ⟨h, hi, -⟩ | ⟨h, hi, -⟩⟩
  · rw [remaining_admitted hp ha h]
    simp [stepsFrom, scheduleAt, h, hw.2.1]
  · rw [remaining_admitted hp ha h]
    simp [stepsFrom, scheduleAt, h, hw.2.1]
  · have hin : (BitVec.ofNat 32 n).toNat = n := by
      rw [BitVec.toNat_ofNat, Nat.mod_eq_of_lt (Nat.lt_trans hn p.rounds.isLt)]
    rw [remaining_admitted hp ha hc, hc, hi, Option.getD_some, hin]
    rcases vectorBefore_isSome (hv' ▸ hv) with h | h | h | h | h | h <;> subst h
    · rw [scheduleAt_round (c := 3) (k := stepsFrom 3 p.rounds.toNat n) hn (by decide) (by decide) rfl]; exact ⟨rfl, rfl⟩
    · rw [scheduleAt_round (c := 4) (k := stepsFrom 4 p.rounds.toNat n) hn (by decide) (by decide) rfl]; exact ⟨rfl, rfl⟩
    · rw [scheduleAt_round (c := 5) (k := stepsFrom 5 p.rounds.toNat n) hn (by decide) (by decide) rfl]; exact ⟨rfl, rfl⟩
    · rw [scheduleAt_round (c := 6) (k := stepsFrom 6 p.rounds.toNat n) hn (by decide) (by decide) rfl]; exact ⟨rfl, rfl⟩
    · rw [scheduleAt_round (c := 7) (k := stepsFrom 7 p.rounds.toNat n) hn (by decide) (by decide) rfl]; exact ⟨rfl, rfl⟩
    · rw [scheduleAt_round (c := 8) (k := stepsFrom 8 p.rounds.toNat n) hn (by decide) (by decide) rfl]; exact ⟨rfl, rfl⟩
  · rw [remaining_admitted hp ha h, h, hi]
    simp [stepsFrom, scheduleAt, lastRound]
    simp only [if_neg (show ¬2 = 5 + 6 * p.rounds.toNat by omega), if_neg (show ¬2 = 4 + 6 * p.rounds.toNat by omega),
      if_neg (show ¬2 = 3 + 6 * p.rounds.toNat by omega), and_self]
  · rw [remaining_admitted hp ha h, h, hi]
    simp [stepsFrom, scheduleAt, lastRound]
    simp only [if_neg (show ¬1 = 5 + 6 * p.rounds.toNat by omega), if_neg (show ¬1 = 4 + 6 * p.rounds.toNat by omega),
      if_neg (show ¬1 = 3 + 6 * p.rounds.toNat by omega), and_self]

end Sys2Proof.Machine
end

