-- ==== Sys2Proof/Laws/Text.lean ====
section
/-! SUPPORT. Reading back what the printer prints (30_encoding.md R86, R88): digits, numbers, words, lists of words and bytes. -/

namespace Sys2Proof.Machine.Assembly

theorem digitValue_digitChar {d : Nat} (h : d < 16) : digitValue (digitChar d) = some d := by
  interval_cases d <;> decide

/-- A text that begins with a digit, below 16. -/
def BeginsWithDigit (base : Nat) (t : Text) : Prop := ∃ c cs d, t = c :: cs ∧ digitValue c = some d ∧ d < base

theorem BeginsWithDigit.append {base : Nat} {t : Text} (h : BeginsWithDigit base t) (u : Text) : BeginsWithDigit base (t ++ u) := by
  obtain ⟨c, cs, d, rfl, hc, hd⟩ := h
  exact ⟨c, cs ++ u, d, rfl, hc, hd⟩

theorem skipSpaces_of_digit {base : Nat} {t : Text} (h : BeginsWithDigit base t) : skipSpaces t = t := by
  obtain ⟨c, cs, d, rfl, hc, -⟩ := h
  rw [skipSpaces, if_neg]
  rintro (rfl | rfl | rfl) <;> revert hc <;> simp [digitValue]

theorem readNatOf_of_digit {base : Nat} {t : Text} (h : BeginsWithDigit base t) : readNatOf base t = some (readDigits base 0 t) := by
  obtain ⟨c, cs, d, rfl, hc, hd⟩ := h
  simp only [readNatOf, hc, if_pos hd]

theorem readDigits_digitChar {base d : Nat} (h : d < base) (h16 : d < 16) (n : Nat) (rest : Text) :
    readDigits base n (digitChar d :: rest) = readDigits base (base * n + d) rest := by
  simp only [readDigits, digitValue_digitChar h16, if_pos h]

/-! ### Hexadecimal -/

theorem readDigits_hexDigits (k : Nat) : ∀ (w n : Nat) (rest : Text),
    readDigits 16 n (hexDigits k w ++ rest) = readDigits 16 (n * 16 ^ k + w % 16 ^ k) rest := by
  induction k with
  | zero => intro w n rest; simp [hexDigits, Nat.mod_one]
  | succ k ih =>
    intro w n rest
    have hlt : w % 16 < 16 := Nat.mod_lt _ (by omega)
    rw [hexDigits, List.append_assoc, List.singleton_append, ih, readDigits_digitChar hlt hlt]
    congr 1
    rw [Nat.pow_succ, Nat.mul_comm (16 ^ k) 16, Nat.mod_mul, Nat.mul_add, ← Nat.mul_assoc, ← Nat.mul_assoc,
      Nat.mul_comm 16 n]
    omega

theorem hexDigits_begins (k : Nat) : ∀ w, BeginsWithDigit 16 (hexDigits (k + 1) w) := by
  induction k with
  | zero =>
    intro w
    exact ⟨_, _, w % 16, rfl, digitValue_digitChar (Nat.mod_lt _ (by omega)), Nat.mod_lt _ (by omega)⟩
  | succ k ih =>
    intro w
    rw [hexDigits]
    exact (ih (w / 16)).append _

/-! ### Decimal -/

theorem readDigits_decimal (k : Nat) : ∀ (n : Nat) (rest : Text), n < 10 ^ k → 0 < k →
    readDigits 10 0 (decimal k n ++ rest) = readDigits 10 n rest := by
  induction k with
  | zero => intro n rest _ h; omega
  | succ k ih =>
    intro n rest hn _
    rw [decimal]
    split
    · rw [List.singleton_append, readDigits_digitChar (by omega) (by omega), Nat.mul_zero, Nat.zero_add]
    · have hk : 0 < k := by
        rcases Nat.eq_zero_or_pos k with rfl | h
        · simp at hn; omega
        · exact h
      rw [List.append_assoc, List.singleton_append, ih _ _ (by rw [Nat.pow_succ] at hn; omega) hk,
        readDigits_digitChar (by omega) (by omega)]
      congr 1
      omega

theorem decimal_begins (k : Nat) : ∀ n, BeginsWithDigit 10 (decimal (k + 1) n) := by
  induction k with
  | zero =>
    intro n
    rw [decimal]
    split
    · exact ⟨_, _, n, rfl, digitValue_digitChar (by omega), by omega⟩
    · exact ⟨_, _, n % 10, rfl, digitValue_digitChar (by omega), by omega⟩
  | succ k ih =>
    intro n
    rw [decimal]
    split
    · exact ⟨_, _, n, rfl, digitValue_digitChar (by omega), by omega⟩
    · exact (ih (n / 10)).append _

/-- The character `x` is no digit, so no printed number begins with `0x` unless it is hexadecimal. -/
theorem decimal_not_hex (k : Nat) : ∀ (n : Nat) (rest : Text), (∀ cs, rest ≠ 'x' :: cs) →
    ∀ c cs, decimal (k + 1) n ++ rest = c :: cs → ∀ ds, cs ≠ 'x' :: ds := by
  have hx : ∀ d, d < 16 → digitChar d ≠ 'x' := by
    intro d hd
    interval_cases d <;> decide
  have hsingle (d : Nat) (rest : Text) (hr : ∀ cs, rest ≠ 'x' :: cs) (c : Char) (cs : Text)
      (h : [digitChar d] ++ rest = c :: cs) (ds : Text) : cs ≠ 'x' :: ds := by
    rw [List.singleton_append, List.cons.injEq] at h
    rw [← h.2]
    exact hr ds
  induction k with
  | zero =>
    intro n rest hr c cs h ds
    rw [decimal] at h
    split at h
    · exact hsingle _ _ hr c cs h ds
    · exact hsingle _ _ hr c cs h ds
  | succ k ih =>
    intro n rest hr c cs h ds
    rw [decimal] at h
    split at h
    · exact hsingle _ _ hr c cs h ds
    · rw [List.append_assoc, List.singleton_append] at h
      refine ih (n / 10) _ (fun cs hcs => ?_) c cs h ds
      rw [List.cons.injEq] at hcs
      exact hx _ (by omega) hcs.1

/-! ### Numbers, words and lists -/

/-- The text stops a number: the reader takes no more digits of it. -/
def Stops (base : Nat) (rest : Text) : Prop := ∀ n, readDigits base n rest = (n, rest)

theorem stops_nil (base : Nat) : Stops base [] := fun _ => rfl

theorem stops_comma (base : Nat) (rest : Text) : Stops base (',' :: rest) := fun _ => by simp [readDigits, digitValue]

theorem stops_bracket (base : Nat) (rest : Text) : Stops base (']' :: rest) := fun _ => by simp [readDigits, digitValue]

/-- A printed decimal number, read back. -/
theorem readBelow_decimal {k n bound : Nat} {rest : Text} (hn : n < bound) (hk : n < 10 ^ (k + 1)) (hs : Stops 10 rest)
    (hx : ∀ cs, rest ≠ 'x' :: cs) : readBelow bound (decimal (k + 1) n ++ rest) = some (n, rest) := by
  have hbegin := (decimal_begins k n).append rest
  have hread : readNat (decimal (k + 1) n ++ rest) = some (n, rest) := by
    unfold readNat
    rw [skipSpaces_of_digit hbegin]
    split
    · rename_i more h
      exact absurd rfl (decimal_not_hex k n rest hx _ _ h more)
    · rw [readNatOf_of_digit hbegin, readDigits_decimal _ _ _ hk (by omega), hs]
  rw [readBelow, hread]
  exact if_pos hn

/-- A printed word, read back. -/
theorem readItem_printWord (w : Word) {rest : Text} (hs : Stops 16 rest) (hx : ∀ cs, skipSpaces rest ≠ 'x' :: cs) :
    readItem (printWord w ++ rest) = some ([w], rest) := by
  have hw : w.toNat % 16 ^ 16 = w.toNat := Nat.mod_eq_of_lt w.isLt
  have hread : readNat (printWord w ++ rest) = some (w.toNat, rest) := by
    show readNatOf 16 (hexDigits 16 w.toNat ++ rest) = _
    rw [readNatOf_of_digit ((hexDigits_begins 15 w.toNat).append rest), readDigits_hexDigits, Nat.zero_mul, Nat.zero_add, hw, hs]
  have hbelow : readBelow (2 ^ 64) (printWord w ++ rest) = some (w.toNat, rest) := by
    rw [readBelow, hread]
    exact if_pos w.isLt
  unfold readItem
  rw [hbelow]
  simp

/-- A printed list of words, read back, with enough fuel. -/
theorem readItems_printed (ws : List Word) (rest : Text) : ∀ fuel, ws ≠ [] → ws.length ≤ fuel →
    readItems fuel (separated [',', ' '] (ws.map printWord) ++ (']' :: rest)) = some (ws, rest) := by
  have hspace (t : Text) : readItem (' ' :: t) = readItem t := by simp [readItem, readBelow, readNat, skipSpaces]
  induction ws with
  | nil => intro fuel h; exact absurd rfl h
  | cons w ws ih =>
    intro fuel _ hlen
    obtain ⟨fuel, rfl⟩ : ∃ f, fuel = f + 1 := ⟨fuel - 1, by simp at hlen; omega⟩
    cases ws with
    | nil =>
      simp only [List.map_cons, List.map_nil, separated, readItems]
      rw [readItem_printWord w (stops_bracket 16 rest) (by simp [skipSpaces])]
      simp [skipSpaces]
    | cons w' ws =>
      have hne : (w' :: ws).map printWord = printWord w' :: ws.map printWord := rfl
      have hih := ih fuel (by simp) (by simp at hlen ⊢; omega)
      have hitems (t : Text) : readItems fuel (' ' :: t) = readItems fuel t := by
        cases fuel with
        | zero => rfl
        | succ fuel => simp only [readItems, hspace]
      rw [List.map_cons, hne, separated, ← hne, List.append_assoc, List.append_assoc, readItems, List.cons_append,
        List.cons_append, List.nil_append, readItem_printWord w (stops_comma 16 _) (by simp [skipSpaces])]
      · simp [skipSpaces, hitems, hne ▸ hih]
      · simp

/-- A printed vector of words, read back. -/
theorem readWords_printWords {n : Nat} (v : Vector Word n) (rest : Text) (hn : 0 < n) :
    readWords n (printWords v.toList ++ rest) = some (v, rest) := by
  have hlen : v.toList.length = n := by simp
  have hne : v.toList ≠ [] := by
    intro h
    rw [h] at hlen
    simp at hlen
    omega
  have hitems := readItems_printed v.toList rest n hne (by omega)
  have hexpect : expect ['['] (printWords v.toList ++ rest) =
      some (separated [',', ' '] (v.toList.map printWord) ++ (']' :: rest)) := by
    simp [printWords, expect, skipSpaces, afterPrefix]
  rw [readWords, hexpect]
  simp only [hitems]
  rw [dif_pos (by simp)]
  rfl

theorem readMessage_bracket (t : Text) : readMessage ('[' :: t) = readWords 16 ('[' :: t) := by
  simp [readMessage, expect, skipSpaces, afterPrefix]

/-! ### Words that are expected -/

theorem afterPrefix_append (word cs : Text) : afterPrefix word (word ++ cs) = some cs := by
  induction word with
  | nil => rfl
  | cons c word ih => simp [afterPrefix, ih]

theorem expect_append (word cs : Text) (h : skipSpaces (word ++ cs) = word ++ cs) : expect word (word ++ cs) = some cs := by
  rw [expect, h, afterPrefix_append]

/-! ### Bytes -/

theorem readHexBytes_printBytes (bytes : List Byte) : readHexBytes (printBytes bytes) = (bytes, []) := by
  induction bytes with
  | nil => rfl
  | cons b bs ih =>
    have hb := b.isLt
    have h1 : b.toNat / 16 % 16 < 16 := Nat.mod_lt _ (by omega)
    have h2 : b.toNat % 16 < 16 := Nat.mod_lt _ (by omega)
    have : printBytes (b :: bs) = digitChar (b.toNat / 16 % 16) :: digitChar (b.toNat % 16) :: printBytes bs := by
      simp [printBytes, hexDigits]
    rw [this, readHexBytes]
    simp only [digitValue_digitChar h1, digitValue_digitChar h2, ih]
    congr 2
    apply BitVec.eq_of_toNat_eq
    rw [BitVec.toNat_ofNat]
    omega

/-! ### Comments -/

/-- A character that neither quotes nor begins a comment. -/
def plainChar (c : Char) : Bool := c != ';' && c != '"'

theorem dropComment_of_plain {t : Text} (h : t.all plainChar = true) : dropComment false t = t := by
  induction t with
  | nil => rfl
  | cons c cs ih =>
    simp only [List.all_cons, Bool.and_eq_true, plainChar, bne_iff_ne] at h
    rw [dropComment, if_neg (by simp [h.1.1]), if_neg h.1.2, ih h.2]

theorem plain_append {t u : Text} (ht : t.all plainChar = true) (hu : u.all plainChar = true) :
    (t ++ u).all plainChar = true := by
  rw [List.all_append, ht, hu]
  rfl

theorem plain_digitChar {d : Nat} (h : d < 16) : plainChar (digitChar d) = true := by
  interval_cases d <;> decide

theorem plain_hexDigits (k : Nat) : ∀ w, (hexDigits k w).all plainChar = true := by
  induction k with
  | zero => intro w; rfl
  | succ k ih => intro w; simp [hexDigits, ih, plain_digitChar (Nat.mod_lt w (show 0 < 16 by omega))]

theorem plain_decimal (k : Nat) : ∀ n, (decimal k n).all plainChar = true := by
  induction k with
  | zero => intro n; rfl
  | succ k ih =>
    intro n
    rw [decimal]
    split
    · simp [plain_digitChar (show n < 16 by omega)]
    · simp [ih, plain_digitChar (show n % 10 < 16 by omega)]

theorem plain_separated {sep : Text} (hsep : sep.all plainChar = true) :
    ∀ ts : List Text, (∀ t ∈ ts, t.all plainChar = true) → (separated sep ts).all plainChar = true
  | [], _ => rfl
  | [t], h => h t (by simp)
  | t :: u :: ts, h => by
    rw [separated, List.all_append, List.all_append, h t (by simp), hsep,
      plain_separated hsep (u :: ts) fun v hv => h v (List.mem_cons_of_mem _ hv)]
    · rfl
    · simp

theorem plain_printWords (ws : List Word) : (printWords ws).all plainChar = true := by
  have hwords : (separated [',', ' '] (ws.map printWord)).all plainChar = true := by
    refine plain_separated (by decide) _ fun t ht => ?_
    obtain ⟨w, -, rfl⟩ := List.mem_map.mp ht
    rw [printWord, List.all_cons, List.all_cons, plain_hexDigits]
    decide
  rw [printWords, List.all_cons, List.all_append, hwords]
  decide

theorem plain_printBytes (bytes : List Byte) : (printBytes bytes).all plainChar = true := by
  rw [printBytes, List.all_flatMap, List.all_eq_true]
  exact fun b _ => plain_hexDigits 2 b.toNat

end Sys2Proof.Machine.Assembly
end

