-- ==== Sys2Proof/Tests/Slice0.lean ====
section
/-! SUPPORT. The model's own tests: the WellFormed smoke, decoding and encoding of words written out from the spec, one or two vectors
of 95_test_vectors.md per instruction, and for every statement a state that meets its hypotheses. -/

set_option maxRecDepth 20000

namespace Sys2Proof.Tests

open Sys2Proof Sys2Proof.Machine

/-! ### Helpers -/

/-- The next state, if there is one. -/
def nextOf (o : Out) : Option State :=
  match o with
  | .next s => some s
  | .fault _ => none
  | .refused _ => none

/-- The fault, if there is one. -/
def faultOf (o : Out) : Option Fault :=
  match o with
  | .next _ => none
  | .fault r => some r
  | .refused _ => none

/-- A byte string in hexadecimal. -/
def hex (text : String) : List Byte := (Assembly.readHexBytes text.toList).1

/-- The bytes of a buffer from an offset on. -/
def bytesAt (m : Memory) (o n : Nat) : List (Option Byte) := (List.range n).map fun k => m.read (o + k)

/-- Words, given as numbers. -/
def words {n : Nat} (ws : Vector Nat n) : Vector Word n := Vector.ofFn fun k => BitVec.ofNat 64 ws[k]

/-- The chaining state of the EIP-152 vectors, 95_test_vectors.md section 2. -/
def eipH : Vector Word 8 :=
  #v[0x6a09e667f2bdc948, 0xbb67ae8584caa73b, 0x3c6ef372fe94f82b, 0xa54ff53a5f1d36f1, 0x510e527fade682d1,
     0x9b05688c2b3e6c1f, 0x1f83d9abfb41bd6b, 0x5be0cd19137e2179]

/-- The message block "abc" of the EIP-152 vectors. -/
def eipM : Vector Word 16 := #v[0x636261, 0, 0, 0, 0, 0, 0, 0, 0, 0, 0, 0, 0, 0, 0, 0]

/-- The EIP-152 vectors by `rounds` and final byte. -/
def eip (rounds : BitVec 32) (f : Byte) : Payload := { rounds := rounds, h := eipH, m := eipM, t := #v[3, 0], f := f }

/-- The payload of vector EIP-4, 95_test_vectors.md section 2, without its last byte. -/
def eip4Head : List Byte :=
  hex "0000000048c9bdf267e6096a3ba7ca8485ae67bb2bf894fe72f36e3cf1361d5f3af54fa5d182e6ad7f520e511f6c3e2b8c68059b" ++
    (hex "6bbd41fbabd9831f79217e1319cde05b616263" ++ (List.replicate 125 0 ++ (3 :: List.replicate 15 0)))

/-- The working vector of program P2 after each phase, 95_test_vectors.md section 4. -/
def p2Init : Vector Word 16 :=
  #v[0x6a09e667f2bdc948, 0xbb67ae8584caa73b, 0x3c6ef372fe94f82b, 0xa54ff53a5f1d36f1,
     0x510e527fade682d1, 0x9b05688c2b3e6c1f, 0x1f83d9abfb41bd6b, 0x5be0cd19137e2179,
     0x6a09e667f3bcc908, 0xbb67ae8584caa73b, 0x3c6ef372fe94f82b, 0xa54ff53a5f1d36f1,
     0x510e527fade682d2, 0x9b05688c2b3e6c1f, 0xe07c265404be4294, 0x5be0cd19137e2179]
def p2G1c : Vector Word 16 :=
  #v[0xbb1838e7a107ae7a, 0x566d1711b009135a, 0x5bf2cd1ef9d6b596, 0x0130c253729b586a,
     0x35b17127e5416f70, 0x0d4ac7cd9a454779, 0x625e1e265433de41, 0x9367425cd5a354aa,
     0x76eb1310ddd333a0, 0x569f2dcb523326d8, 0x39d7ea75ba23e375, 0x07356e4db9ed463b,
     0x0ce12ca8ea166a98, 0x9b377f45cd687f9d, 0xfd68f702bb8eeb4a, 0x61e579135ad00f4a]
def p2G2c : Vector Word 16 :=
  #v[0xf0c9aa0f86491dea, 0x63b7dedf4a4e5ad3, 0xbe50eb454e0a93d7, 0x949804b0483ead14,
     0xb7defc3d0277e11f, 0xed49c30cd311d50e, 0xa056671704b00d71, 0x75e6432fc4661b06,
     0xee5e0f39647a9fff, 0x7bee264bf3cdadfe, 0xb2752dadd66bd8f9, 0xa99463cb37905929,
     0x7772fc2886a76c5f, 0x254ef880a19a8726, 0x789d43381c47f584, 0xa25ef57d7da312ee]
def p2Diag : Vector Word 16 :=
  #v[0xf0c9aa0f86491dea, 0x63b7dedf4a4e5ad3, 0xbe50eb454e0a93d7, 0x949804b0483ead14,
     0xed49c30cd311d50e, 0xa056671704b00d71, 0x75e6432fc4661b06, 0xb7defc3d0277e11f,
     0xb2752dadd66bd8f9, 0xa99463cb37905929, 0xee5e0f39647a9fff, 0x7bee264bf3cdadfe,
     0xa25ef57d7da312ee, 0x7772fc2886a76c5f, 0x254ef880a19a8726, 0x789d43381c47f584]
def p2G1d : Vector Word 16 :=
  #v[0xde136d1c595af2f8, 0x040e45f64efe6844, 0x34372e751270aedd, 0x4c7700ed4ab68e33,
     0xa8a4543a26cec881, 0xbd1e76d1bb00f1af, 0x926df2d7ae7a1bb1, 0xc010cc65015e3e2a,
     0xd76f0dc452b9715a, 0x71ed67e6ab0d1307, 0xa248393475f476f4, 0xd2dfa20328b7f1d3,
     0x24f9e0167c4d9861, 0xc859041b737cb9de, 0xb3ea29fb1179d6f5, 0x56f17bb734ea43d5]
def p2G2d : Vector Word 16 :=
  #v[0x86b7c1568029bb79, 0xc12cbcc809ff59f3, 0xc6a5214cc0eaca8e, 0x0c87cd524c14cc5d,
     0xa447c850aa694a7e, 0xde080f1bb1c0f84b, 0x595cb8a9a1aca66c, 0x44ee6039bd86a9f7,
     0xfa87b01273fa6dbe, 0x521a715c63e08d8a, 0xbec3ae837eac4887, 0x6267fc79df9d6ad1,
     0x2318a24e2140fc64, 0xe02d0975b8d37a83, 0x1c7b754f08b7d193, 0x8f885a76b6e578fe]
def p2Undiag : Vector Word 16 :=
  #v[0x86b7c1568029bb79, 0xc12cbcc809ff59f3, 0xc6a5214cc0eaca8e, 0x0c87cd524c14cc5d,
     0x44ee6039bd86a9f7, 0xa447c850aa694a7e, 0xde080f1bb1c0f84b, 0x595cb8a9a1aca66c,
     0xbec3ae837eac4887, 0x6267fc79df9d6ad1, 0xfa87b01273fa6dbe, 0x521a715c63e08d8a,
     0xe02d0975b8d37a83, 0x1c7b754f08b7d193, 0x8f885a76b6e578fe, 0x2318a24e2140fc64]
def p2Hout : Vector Word 8 :=
  #v[0x527d89b20c383ab6, 0x182cee3452a89419, 0x004c622c4d845f1b, 0xfbd2493470e97726, 0xf5cd3b33a8b351a5,
     0x2339d59389e0f7f2, 0x4e038cc6fc643dde, 0x21a4d7fe93927b71]

/-- A BUSY state of program P2 with a working vector. -/
def p2State (v : Vector Word 16) : State :=
  { State.reset with
    fsm := Fsm.busy, i := some 0, rounds := some 1, h := some eipH, m := some eipM, t := some #v[3, 0], f := some true, v := some v }

/-- A block that is DONE with a status and a filled OUT. -/
def doneState (status : BitVec 2) : State :=
  { State.reset with fsm := Fsm.done, status := some status, outBuf := Memory.writeAll [] 0 (List.replicate 64 7) }

/-! ### WellFormed: each check refuses an ill-formed term -/

theorem test_wf_strict_refuses_2 : (Instr.blake2fStrict (eip 12 2)).wellFormed = false := by decide
theorem test_wf_length_refuses_213 : (Instr.invalidInputLength (List.replicate 213 0)).wellFormed = false := by decide
theorem test_wf_flag_refuses_1 : (Instr.invalidFinalFlag (eip 12 1)).wellFormed = false := by decide
theorem test_wf_reserved_refuses_a : (Instr.phaseReserved 0xA).wellFormed = false := by decide

/-! ### Decoding (30_encoding.md R71, R79 to R81, R86, R87) -/

theorem test_decode_chk : decodeTableWord 8 0b0000 = some .phaseChk := by decide
theorem test_decode_dec : decodeTableWord 8 0b0001 = some .phaseDec := by decide
theorem test_decode_init : decodeTableWord 8 0b0010 = some .phaseInit := by decide
theorem test_decode_g1c : decodeTableWord 8 0b0011 = some .phaseG1c := by decide
theorem test_decode_g2c : decodeTableWord 8 0b0100 = some .phaseG2c := by decide
theorem test_decode_diag : decodeTableWord 8 0b0101 = some .phaseDiag := by decide
theorem test_decode_g1d : decodeTableWord 8 0b0110 = some .phaseG1d := by decide
theorem test_decode_g2d : decodeTableWord 8 0b0111 = some .phaseG2d := by decide
theorem test_decode_undiag : decodeTableWord 8 0b1000 = some .phaseUndiag := by decide
theorem test_decode_fin : decodeTableWord 8 0b1001 = some .phaseFin := by decide
theorem test_decode_ser : decodeTableWord 8 0b1010 = some .phaseSer := by decide
theorem test_decode_reserved : decodeTableWord 8 0b1011 = some (.phaseReserved 0xB) := by decide
/-- PHASE4 has four bits. -/
theorem test_decode_too_wide : decodeTableWord 8 0b10000 = none := by decide

/-- BLAKE2F: the 213 bytes of vector EIP-4. -/
theorem test_decode_blake2f : decodeRequest false (eip4Head ++ [1]) = .blake2f (eip 0 1) := by decide
/-- BLAKE2F.strict: the same bytes in strict mode. -/
theorem test_decode_strict : decodeRequest true (eip4Head ++ [1]) = .blake2fStrict (eip 0 1) := by decide
/-- INVALID_FINAL_FLAG: the same bytes with final byte 2, in strict mode. -/
theorem test_decode_flag : decodeRequest true (eip4Head ++ [2]) = .invalidFinalFlag (eip 0 2) := by decide
/-- INVALID_INPUT_LENGTH: 212 bytes. -/
theorem test_decode_length : decodeRequest false eip4Head = .invalidInputLength eip4Head := by decide
theorem test_decode_submit : decodeWire false (.handshake (.submit [1, 2])) = .submit [1, 2] := by decide
theorem test_decode_consume : decodeWire false (.handshake .consume) = .consume := by decide
theorem test_decode_reset : decodeWire false (.handshake .reset) = .reset := by decide
/-- `rounds` is big-endian (41_decoder.md R123: `0C 00 00 00` is 201326592). -/
theorem test_decode_rounds : be32 (hex "0c000000") 0 = 201326592 := by decide
/-- R124's example. -/
theorem test_decode_word : le64 (hex "48c9bdf267e6096a") 0 = 0x6a09e667f2bdc948 := by decide

/-- The pseudo-instructions encode as the command R87 gives: program P3's first command, bytes 0 to 3, and `t` and the final byte. -/
theorem test_encode_block :
    encode (.blake2bBlock eipH eipM #v[3, 0] true) = .request ([0, 0, 0, 12] ++ (eip4Head.drop 4 ++ [1])) := by decide
theorem test_encode_zero : encode (.blake2fZero 12) = .request ([0, 0, 0, 12] ++ List.replicate 209 0) := by decide

/-! ### Text (30_encoding.md R86 to R88) -/

theorem test_assemble_block :
    Assembly.assembleLine "blake2b.block h=[0 x8], m=ascii:\"abc\", t=[3, 0x0], last=1 ; abc".toList =
      some (.blake2bBlock (Vector.replicate 8 0) eipM #v[3, 0] true) := by decide
theorem test_assemble_program :
    Assembly.assembleProgram "blake2f.raw 0aFF\nconsume\n\nblake2f.raw   ; empty request, L = 0\nreset".toList =
      some [.submit [0x0A, 0xFF], .consume, .submit [], .reset] := by decide
theorem test_assemble_message :
    (Assembly.readMessage "bytes:616263 ++ 00×125".toList).map Prod.fst = some eipM := by decide
theorem test_print_words : Assembly.printWords [0x6a09e667f2bdc948, 3] =
    "[0x6a09e667f2bdc948, 0x0000000000000003]".toList := by decide
theorem test_print_illegal : Assembly.printRequest false [0x0A, 0xFF] = "blake2f.raw 0aff".toList := by decide

/-! ### Word operators (95_test_vectors.md 3.1, 3.6) -/

theorem test_add_wraps : add64 0xffffffffffffffff 0xffffffffffffffff = 0xfffffffffffffffe := by decide
theorem test_xor : xor64 0x1f83d9abfb41bd6b 0xffffffffffffffff = 0xe07c265404be4294 := by decide
theorem test_rotr_24 : rotr64 0x0123456789abcdef 24 = 0xabcdef0123456789 := by decide
theorem test_rotr_63 : rotr64 0x0123456789abcdef 63 = 0x02468acf13579bde := by decide
theorem test_g1_lane :
    g1Lane { a := 0x0123456789abcdef, b := 0xfedcba9876543210, c := 0x0f0f0f0f0f0f0f0f, d := 0xf0f0f0f0f0f0f0f0 }
      0x8000000000000000 =
      { a := 0x7fffffffffffffff, b := 0x4a2c0ee0c2a486e8, c := 0x1e1e1e1e9e1e1e1e, d := 0x0f0f0f0f8f0f0f0f } := by decide
theorem test_g2_lane :
    g2Lane { a := 0x0123456789abcdef, b := 0xfedcba9876543210, c := 0x0f0f0f0f0f0f0f0f, d := 0xf0f0f0f0f0f0f0f0 }
      0x8000000000000000 =
      { a := 0x7fffffffffffffff, b := 0xc184490cd094581d, c := 0x1e1e9e1e1e1e1e1e, d := 0x0f0f8f0f0f0f0f0f } := by decide
/-- Row 4 of a vector, low half and high half (42_mixer.md R145): `{x, y}` has `x` in the low lane. -/
theorem test_halves : rowLow p2Init 3 = 0x9b05688c2b3e6c1f510e527fade682d2#128 ∧
    rowHigh p2Init 3 = 0x5be0cd19137e2179e07c265404be4294#128 := by decide

/-! ### The phases (95_test_vectors.md 3.2 to 3.7, 3.9 and program P2) -/

theorem test_chk_212 :
    nextOf (exec .phaseChk { State.reset with fsm := Fsm.busy, inLen := some 212, strict := true }) =
      some { State.reset with fsm := Fsm.done, inLen := some 212, strict := true, status := some 1 } := by decide
theorem test_chk_strict_80 :
    (nextOf (exec .phaseChk
      { State.reset with fsm := Fsm.busy, inLen := some 213, strict := true, inBuf := [(212, 0x80)] })).map State.status =
      some (some 2) := by decide
/-- 3.3: the payload with byte `k` equal to `k`. -/
theorem test_dec_fields :
    (nextOf (exec .phaseDec
      { State.reset with inBuf := Memory.writeAll [] 0 ((List.range 213).map fun k => BitVec.ofNat 8 k) })).map
        (fun s => (s.rounds, s.h, s.t, s.f)) =
      some (some 66051, some #v[0x0b0a090807060504, 0x131211100f0e0d0c, 0x1b1a191817161514, 0x232221201f1e1d1c,
        0x2b2a292827262524, 0x333231302f2e2d2c, 0x3b3a393837363534, 0x434241403f3e3d3c],
        some #v[0xcbcac9c8c7c6c5c4, 0xd3d2d1d0cfcecdcc], some true) := by decide
theorem test_dec_missing_byte : faultOf (exec .phaseDec State.reset) = some (.noByte .input 0) := by decide
theorem test_init_p2 :
    (nextOf (exec .phaseInit { p2State (Vector.replicate 16 0) with i := none })).map (fun s => (s.v, s.i, s.phase)) =
      some (some p2Init, some 0, some Phase.g1c) := by decide
/-- 3.5: T goes to V[12] and V[13]. -/
theorem test_init_t : initValue (Vector.replicate 8 0) #v[0x0123456789abcdef, 0xfedcba9876543210] false =
    words #v[0, 0, 0, 0, 0, 0, 0, 0, 0x6a09e667f3bcc908, 0xbb67ae8584caa73b, 0x3c6ef372fe94f82b, 0xa54ff53a5f1d36f1,
      0x502d1718244d4f3e, 0x65d9d2145d6a5e0f, 0x1f83d9abfb41bd6b, 0x5be0cd19137e2179] := by decide
theorem test_g1c_p2 : (nextOf (exec .phaseG1c (p2State p2Init))).map (fun s => (s.v, s.phase)) =
    some (some p2G1c, some Phase.g2c) := by decide
theorem test_g2c_p2 : (nextOf (exec .phaseG2c (p2State p2G1c))).map (fun s => (s.v, s.phase)) =
    some (some p2G2c, some Phase.diag) := by decide
theorem test_diag_p2 : (nextOf (exec .phaseDiag (p2State p2G2c))).map (fun s => (s.v, s.phase)) =
    some (some p2Diag, some Phase.g1d) := by decide
theorem test_g1d_p2 : (nextOf (exec .phaseG1d (p2State p2Diag))).map (fun s => (s.v, s.phase)) =
    some (some p2G1d, some Phase.g2d) := by decide
theorem test_g2d_p2 : (nextOf (exec .phaseG2d (p2State p2G1d))).map (fun s => (s.v, s.phase)) =
    some (some p2G2d, some Phase.undiag) := by decide
theorem test_undiag_p2 : (nextOf (exec .phaseUndiag (p2State p2G2d))).map (fun s => (s.v, s.i, s.phase)) =
    some (some p2Undiag, some 0, some Phase.fin) := by decide
/-- R105 at the largest counts: round 2^32 − 2 is the last of 2^32 − 1, and the comparison does not wrap. -/
theorem test_undiag_largest :
    (nextOf (exec .phaseUndiag { p2State p2G2d with i := some 0xFFFFFFFD, rounds := some 0xFFFFFFFF })).map
        (fun s => (s.i, s.phase)) = some (some 0xFFFFFFFE, some Phase.g1c) ∧
    (nextOf (exec .phaseUndiag { p2State p2G2d with i := some 0xFFFFFFFE, rounds := some 0xFFFFFFFF })).map
        (fun s => (s.i, s.phase)) = some (some 0xFFFFFFFE, some Phase.fin) := by decide
theorem test_fin_p2 : (nextOf (exec .phaseFin (p2State p2Undiag))).map (fun s => (s.hout, s.phase)) =
    some (some p2Hout, some Phase.ser) := by decide
theorem test_ser_p2 :
    (nextOf (exec .phaseSer { p2State p2Undiag with hout := some p2Hout })).map
        (fun s => (bytesAt s.outBuf 0 8, s.fsm, s.status)) =
      some ((hex "b63a380cb2897d52").map some, Fsm.done, some 0) := by decide
theorem test_reserved_faults : faultOf (exec (.phaseReserved 0xB) State.reset) = some (.reservedPhase 0xB) := by decide

/-! ### The commands -/

/-- R101's example: 212 bytes. -/
theorem test_submit_212 :
    (nextOf (exec (.submit eip4Head) State.reset)).map
        (fun s => (s.fsm, s.phase, s.inLen, s.inBuf.read 211, s.inBuf.read 212)) =
      some (Fsm.busy, some Phase.chk, some 212, some 0, none) := by decide
/-- Of 214 bytes the first 213 are latched (10_state.md R22). -/
theorem test_submit_214 :
    (nextOf (exec (.submit (eip4Head ++ [1, 9])) State.reset)).map
        (fun s => (s.inLen, s.inBuf.read 212, s.inBuf.read 213)) = some (some 214, some 1, none) := by decide
theorem test_consume_error :
    nextOf (exec .consume { doneState 2 with outBuf := [] }) =
      some { State.reset with delivered := [{ status := 2, out := none }] } := by decide
theorem test_consume_ok : nextOf (exec .consume (doneState 0)) =
    some { State.reset with delivered := [{ status := 0, out := some (List.replicate 64 7) }] } := by decide
theorem test_reset_busy : nextOf (exec .reset { p2State p2Init with strict := true }) =
    some { State.reset with strict := true } := by decide
/-- 70_reset_and_hazards.md R243. -/
theorem test_strict_flag_refused :
    (match step { p2State p2Init with agenda := [.setStrictFinalFlag true] } with
      | .refused r => some r
      | _ => none) = some .strictFlagChangedInFlight := by decide

/-! ### Whole commands (95_test_vectors.md section 2 and 3.8) -/

/-- Vector EIP-4: zero rounds. -/
theorem test_blake2f_eip4 :
    (nextOf (exec (.blake2f (eip 0 1)) State.reset)).map (fun s => (s.fsm, s.status, bytesAt s.outBuf 0 64)) =
      some (Fsm.done, some 0,
        (hex "08c9bcf367e6096a3ba7ca8485ae67bb2bf894fe72f36e3cf1361d5f3af54fa5" ++
          hex "d282e6ad7f520e511f6c3e2b8c68059b9442be0454267ce079217e1319cde05b").map some) := by decide
/-- Vector EIP-7: one round, in strict mode. -/
theorem test_strict_eip7 :
    (nextOf (exec (.blake2fStrict (eip 1 1)) { State.reset with strict := true })).map
        (fun s => (s.fsm, s.status, s.hout)) = some (Fsm.done, some 0, some p2Hout) := by decide
theorem test_invalid_length_214 :
    (nextOf (exec (.invalidInputLength (eip4Head ++ [1, 0])) State.reset)).map (fun s => (s.fsm, s.status, s.rounds)) =
      some (Fsm.done, some 1, none) := by decide
/-- Vector EIP-3 in strict mode. -/
theorem test_invalid_flag_eip3 :
    (nextOf (exec (.invalidFinalFlag (eip 12 2)) { State.reset with strict := true })).map
        (fun s => (s.fsm, s.status, s.rounds)) = some (Fsm.done, some 2, none) := by decide
/-- Vector V-CMD-2: one round of the zero payload; the first word of OUT. -/
theorem test_zero_v_cmd_2 :
    (nextOf (exec (.blake2fZero 1) State.reset)).map (fun s => bytesAt s.outBuf 0 8) =
      some ((hex "cf2ff7fd182851ee").map some) := by decide

/-- Vector EIP-5: twelve rounds; the first word of OUT. -/
theorem test_block_eip5 :
    (nextOf (exec (.blake2bBlock eipH eipM #v[3, 0] true) State.reset)).map (fun s => s.hout.map fun h => le64bytes h[0]) =
      some (some (hex "ba80a53f981c4d0d")) := by decide

/-! ### The step -/

/-- A placed phase and a placed request run as the first step after reset. -/
theorem test_step_placed_phase : (nextOf (step (State.reset.withFetchWord 8 0x2))).map State.phase = some (some Phase.g1c) := by decide
theorem test_step_placed_request :
    (nextOf (step (State.reset.withFetchWord 16 0x0201))).map (fun s => (s.fsm, s.inLen, s.inBuf, s.agenda)) =
      some (Fsm.busy, some 2, [(0, 0x01), (1, 0x02)], []) := by decide

/-- 40_transaction.md R102: the CONSUME behind a SUBMIT held in DONE is taken, and the SUBMIT stays. -/
theorem test_step_consume_lifts_the_hold :
    (nextOf (step { doneState 1 with agenda := [.command (.submit [7]), .command .consume] })).map (fun s => (s.fsm, s.agenda)) =
      some (Fsm.idle, [.command (.submit [7])]) := by decide
/-- A SUBMIT held while BUSY waits for the block's own steps, and so do the turns behind it. -/
theorem test_step_hold_while_busy :
    (nextOf (step { p2State p2G2c with phase := some Phase.diag, agenda := [.command (.submit []), .command .consume] })).map
      (fun s => (s.phase, s.agenda)) = some (some Phase.g1d, [.command (.submit []), .command .consume]) := by decide
/-- 60_exceptions.md R217, 30_encoding.md R84: a reserved PHASE faults in IDLE too, and RESET does not go before the fault. -/
theorem test_step_reserved_phase :
    faultOf (step { State.reset with phase := some 0xB, agenda := [.command .reset] }) = some (.reservedPhase 0xB) := by decide

/-! ### Witnesses: for each statement with hypotheses, a state and operands that meet them, clause by clause -/

/-- A BUSY block about to execute a phase, as of program P2. -/
def busyAt (code : BitVec 4) : State := { p2State p2Init with phase := some code, inLen := some 213 }

/-- A block that has answered an empty request. -/
def answeredState : State :=
  { State.reset with fsm := Fsm.done, phase := some Phase.chk, inLen := some 0, status := some 1 }

/-- The reset state with turns to come. -/
def resetWith (agenda : List Turn) : State := { State.reset with agenda := agenda }

theorem witness_DecodingAnEncodingGivesTheInstruction :
    ∀ i ∈ [Instr.blake2f (eip 12 2), .blake2fStrict (eip 12 1), .invalidInputLength [], .invalidFinalFlag (eip 12 2),
      .phaseReserved 0xB, .phaseReserved 0xF, .submit [], .blake2fZero 0], i.wellFormed = true := by decide
theorem witness_RequestsDecodeByLengthAndFinalByte :
    eip4Head.length ≠ 213 ∧ (eip4Head ++ [1]).length = 213 ∧ (eip4Head ++ [1, 0]).length ≠ 213 := by decide
theorem witness_RotationMovesEveryBit : ∃ n k : Nat, (1 ≤ n ∧ n ≤ 63 ∧ k < 64) ∧ n = 63 ∧ k = 63 := ⟨63, 63, by decide⟩
theorem witness_ColumnsMixInAnyOrder : ([3, 1, 0, 2] : List (Fin 4)).Perm [0, 1, 2, 3] := by decide
theorem witness_ScheduleUsesEachWordOncePerRound : 10 ≤ (10 : BitVec 32).toNat := by decide

theorem witness_SubmitLatchesTheRequest :
    State.reset.fsm = Fsm.idle ∧ (busyAt 0).fsm = Fsm.busy ∧ (doneState 0).fsm = Fsm.done ∧
      0 < min eip4Head.length 213 ∧ 212 < min (eip4Head ++ [1, 0]).length 213 ∧ ¬213 < min (eip4Head ++ [1, 0]).length 213 := by
  decide
theorem witness_ConsumeDeliversTheResponse :
    ((doneState 0).fsm = Fsm.done ∧ (doneState 0).status = some Status.ok ∧ (List.replicate 64 (7 : Byte)).length = 64 ∧
      ∀ k, k < 64 → (doneState 0).outBuf.read k = (List.replicate 64 (7 : Byte))[k]?) ∧
    ((doneState 1).fsm = Fsm.done ∧ (doneState 1).status = some 1) ∧ (doneState 2).status = some 2 ∧
    State.reset.fsm = Fsm.idle ∧ (busyAt 0).fsm = Fsm.busy := by decide
theorem witness_StrictFlagChangesOnlyWhenIdle :
    let busy := { busyAt 0 with agenda := [.setStrictFinalFlag true] }
    let done := { answeredState with agenda := [.command (.submit []), .setStrictFinalFlag true] }
    let idle := resetWith [.command .consume, .setStrictFinalFlag true]
    (busy.agenda = [] ++ .setStrictFinalFlag true :: [] ∧ busy.Legal ∧ busy.fsm ≠ Fsm.idle ∧ busy.strict ≠ true) ∧
    (done.agenda = [.command (.submit [])] ++ .setStrictFinalFlag true :: [] ∧
      (∀ turn ∈ [Turn.command (.submit [])], done.heldTurn turn = true) ∧ done.Legal ∧ done.fsm ≠ Fsm.idle ∧
      done.strict ≠ true) ∧
    (idle.agenda = [.command .consume] ++ .setStrictFinalFlag true :: [] ∧
      (∀ turn ∈ [Turn.command .consume], idle.heldTurn turn = true) ∧ idle.Legal ∧ idle.fsm = Fsm.idle) := by decide

theorem witness_ChkRejectsEveryOtherLength :
    ∀ len ∈ [0, 212, 214], ({ busyAt 0 with inLen := some len } : State).inLen = some len ∧ len ≠ 213 := by decide
theorem witness_ChkRejectsFinalBytesInStrictMode :
    ∀ byte ∈ [(0x00 : Byte), 0x01, 0x02, 0xFF], ∀ strict : Bool,
      let s := { busyAt 0 with strict := strict, inBuf := [(212, byte)] }
      s.inLen = some 213 ∧ s.inBuf.read 212 = some byte ∧ s.strict = strict := by decide
theorem witness_ChkPassesLegalRequestsToDec :
    let s := { busyAt 0 with strict := true, inBuf := [(212, 0x01)] }
    s.inLen = some 213 ∧ (s.strict = true → ∃ byte, s.inBuf.read 212 = some byte ∧ (byte = 0x00 ∨ byte = 0x01)) :=
  ⟨rfl, fun _ => ⟨0x01, rfl, .inr rfl⟩⟩
theorem witness_DecAssemblesEveryField :
    ∀ k, k < 213 → ({ busyAt 1 with inBuf := Memory.writeAll [] 0 (List.replicate 213 9) } : State).inBuf.read k = some 9 := by
  decide
theorem witness_DecFaultsOnAMissingByte :
    let s := { busyAt 1 with inBuf := Memory.writeAll [] 0 (List.replicate 212 9) }
    (0 < 213 ∧ State.reset.inBuf.read 0 = none) ∧ 212 < 213 ∧ s.inBuf.read 212 = none ∧
      ∀ j, j < 212 → (s.inBuf.read j).isSome := by decide

theorem witness_InitSetsTheWorkingVector :
    (busyAt 2).h = some eipH ∧ (busyAt 2).t = some #v[3, 0] ∧ (busyAt 2).f = some true ∧ (busyAt 2).rounds = some 1 ∧
      ({ busyAt 2 with rounds := some 0 } : State).rounds = some 0 := by decide
theorem witness_G1PhasesMixEveryColumn :
    (busyAt 3).v = some p2Init ∧ (busyAt 3).m = some eipM ∧ (busyAt 3).i = some 0 := by decide
theorem witness_G2PhasesMixEveryColumn :
    (p2State p2G1c).v = some p2G1c ∧ (p2State p2G1c).m = some eipM ∧
      ({ p2State p2G1c with i := some 0xFFFFFFFE } : State).i = some 0xFFFFFFFE := by decide
theorem witness_DiagMovesTheLanes : (p2State p2G2c).v = some p2G2c := by decide
theorem witness_UndiagMovesTheLanesBack :
    let s := { p2State p2G2d with i := some 0xFFFFFFFD, rounds := some 0xFFFFFFFF }
    (s.v = some p2G2d ∧ s.i = some 0xFFFFFFFD ∧ s.rounds = some 0xFFFFFFFF) ∧
      (0xFFFFFFFD : BitVec 32).toNat + 1 < (0xFFFFFFFF : BitVec 32).toNat ∧
      ¬(0xFFFFFFFE : BitVec 32).toNat + 1 < (0xFFFFFFFF : BitVec 32).toNat := by decide
theorem witness_FinXorsBothHalvesIntoH : (p2State p2Undiag).h = some eipH ∧ (p2State p2Undiag).v = some p2Undiag := by decide
theorem witness_SerWritesLittleEndianWords : ({ busyAt 0xA with hout := some p2Hout } : State).hout = some p2Hout := by decide
theorem witness_ReservedPhaseCodesStop :
    ∀ code ∈ [(0xB : BitVec 4), 0xF], ∀ s ∈ [busyAt code, { State.reset with phase := some code, agenda := [.command .reset] },
        { doneState 0 with phase := some code }],
      s.phase = some code ∧ 0xB ≤ code ∧ s.fsm ≠ 3 ∧ s.status ≠ some 3 := by decide
theorem witness_NoValueIsNeverRead :
    (State.reset.inLen = none ∧ State.reset.h = none ∧ State.reset.v = none ∧ State.reset.hout = none) ∧
    (answeredState.fsm = Fsm.done ∧ ({ answeredState with status := none } : State).status = none) ∧
    ((busyAt 0).inLen = some 213 ∧ ({ busyAt 0 with strict := true } : State).strict = true ∧ (busyAt 0).inBuf.read 212 = none) ∧
    (let s := { doneState 0 with outBuf := Memory.writeAll [] 0 (List.replicate 63 7) }
     s.fsm = Fsm.done ∧ s.status = some Status.ok ∧ 63 < 64 ∧ s.outBuf.read 63 = none ∧
      ∀ j, j < 63 → (s.outBuf.read j).isSome) ∧
    (let s := { busyAt 0 with phase := none, agenda := [.command .consume] }
     s.fsm = Fsm.busy ∧ s.status ≠ some 3 ∧ s.phase = none ∧ holding s.agenda = true) := by decide

theorem witness_Blake2fCompressesAndSerializes :
    (State.reset.endTransaction = State.reset ∧ (State.reset.strict = true → (2 : Byte) = 0x00 ∨ (2 : Byte) = 0x01)) ∧
    (let s := { State.reset with strict := true }
     s.endTransaction = s ∧ (s.strict = true → (eip 12 1).f = 0x00 ∨ (eip 12 1).f = 0x01)) := by decide
theorem witness_IllegalRequestsGetTheirErrorResponse :
    State.reset.fsm = Fsm.idle ∧ ([] : List Byte).length ≠ 213 ∧ 211 < min eip4Head.length 213 ∧
      ¬212 < min eip4Head.length 213 ∧ ({ State.reset with strict := true } : State).strict = true ∧ (eip 12 2).f ≠ 0x00 ∧
      (eip 12 2).f ≠ 0x01 := by decide
theorem witness_PseudoInstructionsRunTheirExpansion : State.reset.endTransaction = State.reset := by decide
theorem witness_RequestRowsHoldWhileNotIdle : (busyAt 0).fsm = Fsm.busy ∧ (doneState 0).fsm = Fsm.done := by decide
theorem witness_ZeroRoundsGiveTheClosedForm :
    State.reset.endTransaction = State.reset ∧ State.reset.strict = false ∧ (eip 0 1).rounds = 0 := by decide
theorem witness_NonzeroFinalBytesAreAliases :
    (0x02 : Byte) ≠ 0 ∧ (0xFF : Byte) ≠ 0 ∧ State.reset.endTransaction = State.reset ∧ State.reset.strict = false := by decide

theorem witness_StepRunsThePhase :
    (busyAt 3).fsm = Fsm.busy ∧ (busyAt 3).status ≠ some Status.reserved ∧ (busyAt 3).phase = some 3 ∧
      holding (busyAt 3).agenda = true ∧ holding [.command .consume] = true ∧ holding [.command (.submit [])] = true ∧
      ({ busyAt 3 with agenda := [.pass] } : State).agenda = .pass :: [] := by decide
theorem witness_StepRunsAnEnabledCommand :
    let idle := resetWith [.command .consume, .command (.submit [])]
    let done := { answeredState with agenda := [.command (.submit [1]), .command (.submit [2]), .command .consume] }
    let busy := { busyAt 3 with agenda := [.command .reset] }
    (idle.agenda = [.command .consume] ++ .command (.submit []) :: [] ∧
      (∀ turn ∈ [Turn.command .consume], idle.heldTurn turn = true) ∧ idle.Legal ∧ idle.fsm = Fsm.idle) ∧
    (done.agenda = [.command (.submit [1]), .command (.submit [2])] ++ .command .consume :: [] ∧
      (∀ turn ∈ [Turn.command (.submit [1]), .command (.submit [2])], done.heldTurn turn = true) ∧ done.Legal ∧
      done.fsm = Fsm.done) ∧
    (busy.agenda = [] ++ .command .reset :: [] ∧ busy.Legal) := by decide
theorem witness_PlacedWordsRunNext :
    State.reset.status ≠ some Status.reserved ∧ (∀ code ∈ State.reset.phase, code ≤ Phase.ser) ∧
      (∀ code ∈ answeredState.phase, code ≤ Phase.ser) ∧ 2 ≤ 2 ∧ 0xFFFF < 2 ^ (8 * 2) := by decide
theorem witness_BlockThatIsNotBusyStaysPut :
    let idle := resetWith [.command .consume]
    let done := { answeredState with agenda := [.command (.submit [1]), .pass] }
    (State.reset.fsm = Fsm.idle ∧ State.reset.Legal ∧ ∀ turn ∈ State.reset.agenda, State.reset.heldTurn turn = true) ∧
    (idle.fsm = Fsm.idle ∧ idle.Legal ∧ ∀ turn ∈ idle.agenda, idle.heldTurn turn = true) ∧
    (done.fsm = Fsm.done ∧ done.Legal ∧ done.agenda = [.command (.submit [1])] ++ .pass :: [] ∧
      ∀ turn ∈ [Turn.command (.submit [1])], done.heldTurn turn = true) := by decide
theorem witness_ReservedFsmOrStatusStops :
    ({ State.reset with fsm := 3 } : State).fsm = 3 ∧ (doneState 3).fsm ≠ 3 ∧ (doneState 3).fsm = Fsm.done ∧
      (doneState 3).status = some 3 := by decide

theorem witness_EveryStepKeepsTheInvariant :
    State.reset.Inv ∧ step (resetWith [.pass]) = .next State.reset ∧ (resetWith [.pass]).Inv :=
  ⟨.inl ⟨rfl, rfl⟩, rfl, .inl ⟨rfl, rfl⟩⟩
/-- The invariant holds of a block with a transaction in flight, and of one with a response. -/
theorem witness_ConsumedResponseIsAFunctionOfTheRequest : answeredState.Inv ∧ answeredState.fsm = Fsm.done :=
  ⟨.inr (.inr ⟨rfl, [], ⟨rfl, rfl⟩, .inl ⟨rfl, rfl, ⟨rfl, rfl, rfl, rfl, rfl⟩, ⟨rfl, rfl, rfl⟩, by decide, by decide⟩⟩), rfl⟩
/-- A BUSY block that meets the invariant, with turns to come. -/
def busyWith (agenda : List Turn) : State :=
  { State.reset with fsm := Fsm.busy, phase := some Phase.chk, inLen := some 0, agenda := agenda }

theorem witness_NoReachableStateFaults :
    (∀ agenda, (busyWith agenda).Inv ∧ (busyWith agenda).fsm = Fsm.busy) ∧
      (holding (busyWith [.command (.submit [])]).agenda = true ∧ holding (busyWith []).agenda = true) ∧
      (busyWith [.pass]).agenda = .pass :: [] ∧
      (busyWith [.setStrictFinalFlag true]).agenda =
        [] ++ .setStrictFinalFlag (!(busyWith [.setStrictFinalFlag true]).strict) :: [] :=
  ⟨fun _ => ⟨.inr (.inl ⟨rfl, [], ⟨rfl, rfl⟩, rfl, rfl, .inl ⟨rfl, ⟨rfl, rfl, rfl, rfl, rfl⟩, ⟨rfl, rfl, rfl⟩⟩⟩), rfl⟩,
    ⟨rfl, rfl⟩, rfl, rfl⟩
theorem witness_ResetAbandonsTheTransaction :
    let s := { answeredState with agenda := [.command .reset, .command (.submit []), .command .consume] }
    s.Inv ∧ s.agenda = .command .reset :: .command (.submit []) :: .command .consume :: [] :=
  ⟨.inr (.inr ⟨rfl, [], ⟨rfl, rfl⟩, .inl ⟨rfl, rfl, ⟨rfl, rfl, rfl, rfl, rfl⟩, ⟨rfl, rfl, rfl⟩, by decide, by decide⟩⟩), rfl⟩
theorem witness_BuffersStayCanonical :
    State.reset.inBuf.wf 213 = true ∧ State.reset.outBuf.wf 64 = true ∧ exec .consume State.reset = .next State.reset :=
  ⟨rfl, rfl, rfl⟩
theorem witness_OnlyConsumeReachesTheRequester :
    exec .reset answeredState = .next State.reset ∧ Instr.reset ≠ .consume := ⟨rfl, by decide⟩
theorem witness_PhasesKeepTheDecodedFields :
    exec (decodePhase Phase.diag) (busyAt 5) = .next { busyAt 5 with v := some (diagValue p2Init), phase := some Phase.g1d } ∧
      Phase.diag ≠ Phase.dec := ⟨rfl, by decide⟩
theorem witness_TransactionsTakeTheExactStepCount :
    let s := resetWith [.command (.submit (encodePayload (eip 1 1)))]
    s.endTransaction = s ∧ s.agenda = .command (.submit (encodePayload (eip 1 1))) :: [] ∧ holding [] = true ∧
      10 < Reference.steps s.strict (encodePayload (eip 1 1)) ∧ 0 < Reference.steps s.strict [] := by decide
theorem witness_TransactionDeliversTheReferenceResponse :
    let s := resetWith [.command (.submit [1, 2]), .command .consume]
    s.endTransaction = s ∧ s.agenda = .command (.submit [1, 2]) :: .command .consume :: [] := by decide
theorem witness_RequestRowsRefineToSteps :
    let s := resetWith [.command (.submit [1, 2]), .command .consume]
    s.endTransaction = s ∧ s.agenda = .command (.submit [1, 2]) :: [.command .consume] ∧ holding [.command .consume] = true := by
  decide
theorem witness_ControlFlowIgnoresTheData :
    (eip 12 1).rounds = (zeroPayload 12).rounds ∧ eip 12 1 ≠ zeroPayload 12 ∧
      (true = true → rejectsFinalByte (eip 12 1).f = rejectsFinalByte (zeroPayload 12).f) := by decide
theorem witness_InstancesAreIndependent :
    let sys : Instances := [resetWith [.pass], doneState 3, busyWith [.setStrictFinalFlag true]]
    (0 : Nat) ≠ 1 ∧ (sys[0]? = some (resetWith [.pass]) ∧ step (resetWith [.pass]) = .next State.reset) ∧
      (sys[1]? = some (doneState 3) ∧ step (doneState 3) = .fault .reservedStatus) ∧
      (sys[2]? = some (busyWith [.setStrictFinalFlag true]) ∧
        step (busyWith [.setStrictFinalFlag true]) = .refused .strictFlagChangedInFlight) :=
  ⟨by decide, ⟨rfl, rfl⟩, ⟨rfl, rfl⟩, ⟨rfl, rfl⟩⟩
theorem witness_ConsumeLiftsTheHold :
    let s := resetWith [.command (.submit [1]), .command (.submit []), .command .consume, .command .consume, .pass]
    s.endTransaction = s ∧ s.agenda = .command (.submit [1]) :: .command (.submit []) :: .command .consume ::
      .command .consume :: [.pass] := by decide

end Sys2Proof.Tests
end

section
/-! Reading what holds no value (00_scope.md R12, 60_exceptions.md R217): what each meaning answers when a register or a byte that
it reads is missing. -/

namespace Sys2Proof.Machine

/-! ### The read of a register -/

theorem readReg_of_eq_none {α : Type} {r : Reg} {value : Option α} (h : value = none) (k : α → Out) :
    readReg r value k = .fault (.noValue r) := by
  rw [h, readReg_none]

/-- One link of a chain of register reads: the chain faults when this register holds no value, or when what is missing (`p`) makes the
rest of the chain fault. -/
theorem readReg_noValue {α : Type} {r : Reg} {value : Option α} {k : α → Out} {p : Prop} (h : value = none ∨ p)
    (hk : p → ∀ x, ∃ q, k x = .fault (.noValue q)) : ∃ q, readReg r value k = .fault (.noValue q) := by
  cases value with
  | none => exact ⟨r, readReg_none r k⟩
  | some x => exact hk (h.resolve_left (Option.some_ne_none x)) x

/-! ### The phases -/

theorem execPhaseChk_of_inLen_none {s : State} (h : s.inLen = none) : execPhaseChk s = .fault (.noValue .INLEN) :=
  readReg_of_eq_none h _

/-- In strict mode CHK reads the final byte, the only byte it reads. -/
theorem execPhaseChk_of_finalByte_none {s : State} (hlen : s.inLen = some 213) (hs : s.strict = true)
    (hbyte : s.inBuf.read 212 = none) : execPhaseChk s = .fault (.noByte .input 212) := by
  rw [execPhaseChk, hlen, readReg_some, if_neg (by simp), if_pos hs]
  exact memRead_fault .input s 1 0 212 _ (by decide) (by simp) (by simp) hbyte

theorem execPhaseInit_noValue {s : State} (h : s.h = none ∨ s.t = none ∨ s.f = none ∨ s.rounds = none) :
    ∃ r, execPhaseInit s = .fault (.noValue r) :=
  readReg_noValue h fun h _ => readReg_noValue h fun h _ => readReg_noValue h fun h _ => ⟨_, readReg_of_eq_none h _⟩

theorem mixPhase_noValue {s : State} (h : s.v = none ∨ s.m = none ∨ s.i = none)
    (value : Vector Word 16 → BitVec 32 → Vector Word 16 → Vector Word 16) (next : BitVec 4) :
    ∃ r, mixPhase value next s = .fault (.noValue r) :=
  readReg_noValue h fun h _ => readReg_noValue h fun h _ => ⟨_, readReg_of_eq_none h _⟩

theorem execPhaseDiag_of_v_none {s : State} (h : s.v = none) : execPhaseDiag s = .fault (.noValue .V) :=
  readReg_of_eq_none h _

theorem execPhaseUndiag_noValue {s : State} (h : s.v = none ∨ s.i = none ∨ s.rounds = none) :
    ∃ r, execPhaseUndiag s = .fault (.noValue r) :=
  readReg_noValue h fun h _ => readReg_noValue h fun h _ => ⟨_, readReg_of_eq_none h _⟩

theorem execPhaseFin_noValue {s : State} (h : s.h = none ∨ s.v = none) : ∃ r, execPhaseFin s = .fault (.noValue r) :=
  readReg_noValue h fun h _ => ⟨_, readReg_of_eq_none h _⟩

theorem execPhaseSer_of_hout_none {s : State} (h : s.hout = none) : execPhaseSer s = .fault (.noValue .HOUT) :=
  readReg_of_eq_none h _

/-! ### CONSUME, and the sequencer -/

theorem execConsume_of_status_none {s : State} (hd : s.fsm = Fsm.done) (h : s.status = none) :
    execConsume s = .fault (.noValue .STATUS) := by
  rw [execConsume, readFsm_done hd, if_pos rfl, response, readStatus, readReg_of_eq_none h]

/-- CONSUME of an OK response names the first byte of OUT that is missing. -/
theorem execConsume_of_outByte_none {s : State} {k : Nat} (hd : s.fsm = Fsm.done) (hok : s.status = some Status.ok) (hk : k < 64)
    (hnone : s.outBuf.read k = none) (hsome : ∀ j, j < k → (s.outBuf.read j).isSome) :
    execConsume s = .fault (.noByte .output k) := by
  rw [execConsume, readFsm_done hd, if_pos rfl, response, readStatus, hok, readReg_some, if_neg (by decide), if_pos rfl]
  simpa using memRead_fault .output s 64 k 0 _ hk (by simp) (by simpa using hsome) (by simpa using hnone)

/-- A BUSY block whose requester holds reads PHASE, and stops when there is none. -/
theorem step_busy_of_phase_none {s : State} (hb : s.fsm = Fsm.busy) (hs : s.status ≠ some Status.reserved) (hp : s.phase = none)
    (h : holding s.agenda = true) : step s = .fault (.noValue .PHASE) := by
  have hlegal : s.Legal := ⟨by simp [hb], hs, by simp [hp]⟩
  rw [step, fetch_of_legal hlegal, fetchTurn, State.nextTurn_holding hb h]
  simp only [fetchPhase, hb, if_true, hp]

/-! ### The obligation -/

/-- Settles O32, reader by reader: each meaning stops at the first missing register or byte that it reads. -/
theorem noValueIsNeverRead : Obligations.NoValueIsNeverRead := by
  unfold Obligations.NoValueIsNeverRead
  intro s
  have mix (h : s.v = none ∨ s.m = none ∨ s.i = none) :
      ∀ i ∈ [Instr.phaseG1c, .phaseG2c, .phaseG1d, .phaseG2d], ∃ r, exec i s = .fault (.noValue r) := by
    intro i hi
    fin_cases hi <;> exact mixPhase_noValue h _ _
  exact ⟨execPhaseChk_of_inLen_none, execPhaseInit_noValue, mix, execPhaseDiag_of_v_none, execPhaseUndiag_noValue,
    execPhaseFin_noValue, execPhaseSer_of_hout_none, execConsume_of_status_none, execPhaseChk_of_finalByte_none,
    fun _ => execConsume_of_outByte_none, step_busy_of_phase_none⟩

end Sys2Proof.Machine
end

section
/-! The rules of the state (10_state.md): what the reset state holds, which registers a phase keeps, and what no instruction writes. -/

namespace Sys2Proof.Machine

/-! ### What is not the transaction's -/

/-- STRICT_FINAL_FLAG and the other agents' data stay as they are (10_state.md R32, R33). -/
structure AgentFrame (s t : State) : Prop where
  strict : t.strict = s.strict
  agenda : t.agenda = s.agenda
  delivered : t.delivered = s.delivered

theorem AgentFrame.refl (s : State) : AgentFrame s s := ⟨rfl, rfl, rfl⟩

theorem AgentFrame.trans {s t u : State} (h : AgentFrame s t) (h' : AgentFrame t u) : AgentFrame s u :=
  ⟨h'.strict.trans h.strict, h'.agenda.trans h.agenda, h'.delivered.trans h.delivered⟩

theorem accept_agentFrame {bytes : List Byte} {s t : State} (h : accept bytes s = .next t) : AgentFrame s t := by
  rw [accept_eq] at h
  cases h
  exact ⟨rfl, rfl, rfl⟩

theorem runPhase_agentFrame {code : BitVec 4} {s t : State} (h : runPhase code s = .next t) : AgentFrame s t :=
  have frame := (runPhase_frame h).1
  ⟨frame.strict, frame.agenda, frame.delivered⟩

theorem State.endTransaction_agentFrame (s : State) : AgentFrame s s.endTransaction := ⟨rfl, rfl, rfl⟩

/-- Every instruction but CONSUME is made of acceptance, phases and the end of a transaction. -/
theorem exec_agentFrame {i : Instr} {s t : State} (hi : i ≠ .consume) (h : exec i s = .next t) : AgentFrame s t :=
  exec_induct i (fun _ _ _ hs ha => hs.trans (accept_agentFrame ha))
    (fun _ _ _ hs hr => hs.trans (runPhase_agentFrame hr)) (fun hc => absurd hc hi) s.endTransaction_agentFrame (.refl s) h

/-- CONSUME delivers, and writes nothing else that is not the transaction's. -/
theorem execConsume_keeps_strict_agenda {s t : State} (h : execConsume s = .next t) :
    t.strict = s.strict ∧ t.agenda = s.agenda := by
  obtain rfl | ⟨d, rfl⟩ := execConsume_next h <;> exact ⟨rfl, rfl⟩

/-- Settles O47: CONSUME by what it can do, every other instruction by the frame of its parts. -/
theorem onlyConsumeReachesTheRequester : Obligations.OnlyConsumeReachesTheRequester := by
  unfold Obligations.OnlyConsumeReachesTheRequester
  intro i s t h
  by_cases hi : i = .consume
  · subst hi
    obtain ⟨hstrict, hagenda⟩ := execConsume_keeps_strict_agenda h
    exact ⟨hstrict, hagenda, fun hne => absurd rfl hne⟩
  · have frame := exec_agentFrame hi h
    exact ⟨frame.strict, frame.agenda, fun _ => frame.delivered⟩

/-! ### What a phase keeps -/

/-- Settles O48, by the frame that all phases share. -/
theorem phasesKeepTheDecodedFields : Obligations.PhasesKeepTheDecodedFields := by
  unfold Obligations.PhasesKeepTheDecodedFields
  intro code s t h
  rw [← runPhase_eq_exec] at h
  obtain ⟨frame, fields⟩ := runPhase_frame h
  refine ⟨frame.inBuf, frame.inLen, fun hne => ?_⟩
  obtain ⟨hrounds, hh, hm, ht, hf⟩ := fields hne
  exact ⟨hrounds, hh, hm, ht, hf⟩

/-! ### The reset state -/

/-- The reset state is that of a block whose transaction has ended (10_state.md R38, R39). -/
theorem State.endTransaction_reset : State.reset.endTransaction = State.reset := rfl

/-- Settles O12: the registers by the state of a blank block, each byte of IN and OUT because an empty buffer lists none. -/
theorem resetStateHoldsTheResetValues : Obligations.ResetStateHoldsTheResetValues := by
  unfold Obligations.ResetStateHoldsTheResetValues
  obtain ⟨hfsm, hphase, hi, hin, hlen, ⟨hrounds, hh, hm, ht, hf⟩, ⟨hv, -, hhout⟩, hout, hstatus⟩ :=
    State.blank_of_endTransaction State.endTransaction_reset
  exact ⟨hfsm, hphase, hi, hin ▸ Memory.read_nil, hlen, hrounds, hh, hm, ht, hf, hv, hhout, hout ▸ Memory.read_nil, hstatus, rfl⟩

/-- Settles O49: the reset state is IDLE with no per-transaction value, the invariant's first case. -/
theorem resetStateMeetsTheInvariant : Obligations.ResetStateMeetsTheInvariant := by
  unfold Obligations.ResetStateMeetsTheInvariant
  exact .inl ⟨rfl, State.endTransaction_reset⟩

end Sys2Proof.Machine
end

section
/-! The rules of memory (20_memory.md): the order in which a half-mix updates its columns, and the canonical form of IN and OUT. -/

namespace Sys2Proof.Machine

/-! ### The order of the columns -/

/-- In-place mixing of distinct columns, one after the other, mixes each of them once and leaves the others. -/
theorem column_foldl_mixColumnAt (f : Column → Word → Column) (x : Vector Word 4) {order : List (Fin 4)} (h : order.Nodup)
    (v : Vector Word 16) (j : Fin 4) :
    column (order.foldl (Reference.mixColumnAt f x) v) j = if j ∈ order then f (column v j) x[j] else column v j := by
  induction order generalizing v with
  | nil => rfl
  | cons k rest ih =>
    obtain ⟨hk, hrest⟩ := List.nodup_cons.mp h
    rw [List.foldl_cons, ih hrest]
    by_cases hj : j = k
    · subst hj
      simp [hk]
    · simp [hj, column_mixColumnAt_ne f x v hj]

/-- Settles O26, column by column: an order of the four columns names each of them once. -/
theorem columnsMixInAnyOrder : Obligations.ColumnsMixInAnyOrder := by
  unfold Obligations.ColumnsMixInAnyOrder
  intro f x v order hperm
  have hnodup : order.Nodup := hperm.nodup_iff.mpr (by decide)
  refine vector_ext_columns fun j => ?_
  have hj : j ∈ order := hperm.mem_iff.mpr (by fin_cases j <;> decide)
  rw [column_foldl_mixColumnAt f x hnodup, if_pos hj, column_mixColumns]

/-! ### The canonical form of the buffers -/

/-- IN and OUT are canonical lists of their 213 and 64 bytes (20_memory.md R50). -/
structure State.BuffersWf (s : State) : Prop where
  inBuf : s.inBuf.wf 213 = true
  outBuf : s.outBuf.wf 64 = true

theorem State.endTransaction_buffersWf (s : State) : s.endTransaction.BuffersWf := ⟨Memory.wf_nil 213, Memory.wf_nil 64⟩

/-- Acceptance writes IN only, at most 213 bytes of it. -/
theorem accept_keeps_buffersWf {bytes : List Byte} {s t : State} (hs : s.BuffersWf) (h : accept bytes s = .next t) :
    t.BuffersWf := by
  rw [accept_eq] at h
  cases h
  exact ⟨Memory.wf_writeAll _ hs.inBuf (by simp), hs.outBuf⟩

/-- A phase writes OUT only, and there the 64 bytes of HOUT. -/
theorem runPhase_keeps_buffersWf {code : BitVec 4} {s t : State} (hs : s.BuffersWf) (h : runPhase code s = .next t) :
    t.BuffersWf := by
  have frame := (runPhase_frame h).1
  refine ⟨frame.inBuf ▸ hs.inBuf, ?_⟩
  obtain hout | ⟨x, hout⟩ := frame.outBuf
  · exact hout ▸ hs.outBuf
  · rw [hout]
    exact Memory.wf_writeAll _ hs.outBuf (by simp [serValue_length])

/-- CONSUME leaves both buffers as they are, or empties them. -/
theorem execConsume_keeps_buffersWf {s t : State} (hs : s.BuffersWf) (h : execConsume s = .next t) : t.BuffersWf := by
  obtain rfl | ⟨d, rfl⟩ := execConsume_next h
  · exact hs
  · exact ⟨s.endTransaction_buffersWf.inBuf, s.endTransaction_buffersWf.outBuf⟩

/-- Settles O46: acceptance, every phase, CONSUME and the end of a transaction keep the form, so every instruction does. -/
theorem buffersStayCanonical : Obligations.BuffersStayCanonical := by
  unfold Obligations.BuffersStayCanonical
  intro i s t hin hout h
  have hs : s.BuffersWf := ⟨hin, hout⟩
  have ht : t.BuffersWf :=
    exec_induct i (fun _ _ _ => accept_keeps_buffersWf) (fun _ _ _ => runPhase_keeps_buffersWf)
      (fun hi => execConsume_keeps_buffersWf hs (by subst hi; exact h)) s.endTransaction_buffersWf hs h
  exact ⟨ht.inBuf, ht.outBuf⟩

end Sys2Proof.Machine
end

section
/-! Encoding and decoding (30_encoding.md): which row a byte string is, the words of the opcode table, and the round trips. -/

namespace Sys2Proof

/-! ### The fields of a payload -/

/-- A string of 213 bytes is the encoding of the fields it decodes to. -/
theorem exists_encodePayload_eq {bytes : List Byte} (h : bytes.length = 213) : ∃ p, encodePayload p = bytes := by
  obtain ⟨p, hp⟩ := decodePayload_isSome h
  exact ⟨p, encodePayload_of_decodePayload hp⟩

/-- The final_flag byte is the last of the 213 (30_encoding.md R76). -/
theorem encodePayload_getElem?_final (p : Payload) : (encodePayload p)[212]? = some p.f := by
  simp [encodePayload, wordsBytes_length]

/-- The final bytes strict mode admits are 0 and 1 (30_encoding.md R76, 41_decoder.md R121). -/
theorem legalStrictFlag_iff (b : Byte) : legalStrictFlag b = true ↔ b = 0x00 ∨ b = 0x01 := by
  revert b; decide

/-! ### The rows of requests -/

theorem decodeRequest_of_length_ne {bytes : List Byte} (h : bytes.length ≠ 213) (strict : Bool) :
    decodeRequest strict bytes = .invalidInputLength bytes := by
  rw [decodeRequest, decodePayload_eq_none h]

theorem decodeRequest_encodePayload (strict : Bool) (p : Payload) :
    decodeRequest strict (encodePayload p) =
      if strict = false then .blake2f p
      else if p.f = 0x00 ∨ p.f = 0x01 then .blake2fStrict p
      else .invalidFinalFlag p := by
  rw [decodeRequest, decodePayload_encodePayload]
  cases strict <;> simp [legalStrictFlag_iff]

/-- Settles O4: a request of another length has no fields, and one of 213 bytes is the encoding of its fields. -/
theorem requestsDecodeByLengthAndFinalByte : Obligations.RequestsDecodeByLengthAndFinalByte := by
  unfold Obligations.RequestsDecodeByLengthAndFinalByte
  refine fun strict bytes => ⟨fun h => decodeRequest_of_length_ne h strict, fun h => ?_⟩
  obtain ⟨p, rfl⟩ := exists_encodePayload_eq h
  exact ⟨p, rfl, encodePayload_getElem?_final p, decodeRequest_encodePayload strict p⟩

/-! ### Round trips -/

/-- Settles O3: a request of another length keeps its bytes in its row, and one of 213 bytes is the encoding of its fields in every row. -/
theorem encodingADecodedRequestGivesItsBytes : Obligations.EncodingADecodedRequestGivesItsBytes := by
  unfold Obligations.EncodingADecodedRequestGivesItsBytes
  intro strict bytes
  by_cases h : bytes.length = 213
  · obtain ⟨p, rfl⟩ := exists_encodePayload_eq h
    rw [decodeRequest_encodePayload]
    split_ifs <;> rfl
  · rw [decodeRequest_of_length_ne h]
    rfl

open Laws in
/-- Settles O2, instruction by instruction. -/
theorem decodingAnEncodingGivesTheInstruction : Obligations.DecodingAnEncodingGivesTheInstruction := by
  unfold Obligations.DecodingAnEncodingGivesTheInstruction
  intro i
  cases i with
  | blake2f p => exact RoundTrip.blake2f p
  | blake2fStrict p => exact RoundTrip.blake2fStrict p
  | invalidInputLength bytes => exact RoundTrip.invalidInputLength bytes
  | invalidFinalFlag p => exact RoundTrip.invalidFinalFlag p
  | phaseChk => exact RoundTrip.phaseChk
  | phaseDec => exact RoundTrip.phaseDec
  | phaseInit => exact RoundTrip.phaseInit
  | phaseG1c => exact RoundTrip.phaseG1c
  | phaseG2c => exact RoundTrip.phaseG2c
  | phaseDiag => exact RoundTrip.phaseDiag
  | phaseG1d => exact RoundTrip.phaseG1d
  | phaseG2d => exact RoundTrip.phaseG2d
  | phaseUndiag => exact RoundTrip.phaseUndiag
  | phaseFin => exact RoundTrip.phaseFin
  | phaseSer => exact RoundTrip.phaseSer
  | phaseReserved code => exact RoundTrip.phaseReserved code
  | submit bytes => exact RoundTrip.submit bytes
  | consume => exact RoundTrip.consume
  | reset => exact RoundTrip.reset
  | blake2bBlock h m t last => exact RoundTrip.blake2bBlock h m t last
  | blake2fZero rounds => exact RoundTrip.blake2fZero rounds

/-! ### The opcode table's words -/

/-- A phase code in a byte is that phase code (log entry 9). -/
theorem wireOfWord_phase (code : BitVec 4) : wireOfWord 8 code.toNat = .ok (.phase code) := by
  simp [wireOfWord, code.isLt]

/-- A word of two bytes or more is the request of its bytes (log entry 9). -/
theorem wireOfWord_request {n w : Nat} (hn : 2 ≤ n) (hw : w < 2 ^ (8 * n)) :
    wireOfWord (8 * n) w = .ok (.request (bytesOfNat n w)) := by
  rw [wireOfWord, if_neg (by omega), if_neg (by omega), if_neg (not_not.2 (Nat.div_eq_of_lt hw)),
    Nat.mul_div_cancel_left n (by decide)]

theorem decodeTableWord_phase (code : BitVec 4) : decodeTableWord 8 code.toNat = some (decodePhase code) := by
  rw [decodeTableWord, wireOfWord_phase]
  rfl

/-- A word whose bytes are those of a payload is the BLAKE2F command of its fields. -/
theorem decodeTableWord_payload {w : Nat} {p : Payload} (hw : w < 2 ^ (8 * 213)) (hbytes : bytesOfNat 213 w = encodePayload p) :
    decodeTableWord (8 * 213) w = some (.blake2f p) := by
  rw [decodeTableWord, wireOfWord_request (by decide) hw, hbytes]
  exact congrArg some (decodeRequest_encodePayload false p)

/-- Settles O1: each phase code by the table, the payload because its bytes are the encoding of its fields. -/
theorem tableWordsDecodeToTheirRows : Obligations.TableWordsDecodeToTheirRows := by
  unfold Obligations.TableWordsDecodeToTheirRows
  have phase := decodeTableWord_phase
  exact ⟨phase 0x0, phase 0x1, phase 0x2, phase 0x3, phase 0x4, phase 0x5, phase 0x6, phase 0x7, phase 0x8, phase 0x9,
    phase 0xA, phase 0xB, phase 0xF, decodeTableWord_payload (by decide +kernel) (by decide +kernel)⟩

end Sys2Proof
end

section
/-! What requests and phase codes do (30_encoding.md R80 to R87): the rows that share one meaning, and the words that are placed. -/

namespace Sys2Proof.Machine

/-! ### One meaning for every row of a request -/

/-- Settles O37: each of these rows is the transaction of its bytes. -/
theorem requestRowsActByTheirBytes : Obligations.RequestRowsActByTheirBytes := by
  unfold Obligations.RequestRowsActByTheirBytes
  exact fun _ _ => ⟨rfl, rfl, rfl⟩

/-- What a block that has answered an admitted request holds. -/
theorem State.Answered.of_admitted {s : State} {p : Payload} (h : s.Answered (encodePayload p))
    (ha : admits s.strict p.f = true) :
    s.status = some Status.ok ∧ s.f = some (finalFlag p.f) ∧ s.v = some (Reference.mixed p) ∧
      s.hout = some (Reference.compress p) ∧ s.outBuf = Memory.writeAll [] 0 (serValue (Reference.compress p)) := by
  have hp := decodePayload_encodePayload p
  obtain ⟨-, ⟨-, -, -, -, hne, hst⟩ | ⟨q, hq, -, ⟨-, -, -, -, hf⟩, -, -, hv, hhout, hout, hst⟩⟩ := h
  · rw [response_of_admitted hp ha] at hst
    exact absurd hst hne
  · obtain rfl : p = q := Option.some.inj (hp.symm.trans hq)
    exact ⟨hst, hf, hv, hhout, hout⟩

/-- An admitted request from a blank block: DONE with the compression of its fields. -/
theorem transact_admitted {s : State} (h : s.endTransaction = s) {p : Payload} (ha : admits s.strict p.f = true) :
    ∃ t, transact (encodePayload p) s = .next t ∧ t.fsm = Fsm.done ∧ t.status = some Status.ok ∧
      t.f = some (finalFlag p.f) ∧ t.v = some (Reference.mixed p) ∧ t.hout = some (Reference.compress p) ∧
      t.outBuf = Memory.writeAll [] 0 (serValue (Reference.compress p)) := by
  obtain ⟨t, ht, hd, hans, hstrict, -⟩ := transact_answers h (encodePayload p)
  exact ⟨t, ht, hd, hans.of_admitted (hstrict ▸ ha)⟩

/-! ### The pseudo-instructions (R87) -/

theorem admits_blockPayload (strict : Bool) (h : Vector Word 8) (m : Vector Word 16) (t : Vector Word 2) (last : Bool) :
    admits strict (blockPayload h m t last).f = true := by
  cases strict <;> cases last <;> rfl

theorem admits_zeroPayload (strict : Bool) (rounds : BitVec 32) : admits strict (zeroPayload rounds).f = true := by
  cases strict <;> rfl

/-- Settles O35: a pseudo-instruction is the transaction of its expansion, whose final byte is legal in both modes. -/
theorem pseudoInstructionsRunTheirExpansion : Obligations.PseudoInstructionsRunTheirExpansion := by
  unfold Obligations.PseudoInstructionsRunTheirExpansion
  refine fun s h m t last rounds => ⟨rfl, rfl, fun hblank => ⟨?_, ?_⟩⟩
  · obtain ⟨u, hu, hd, hst, -, -, hhout, -⟩ := transact_admitted hblank (admits_blockPayload s.strict h m t last)
    exact ⟨u, hu, hd, hst, hhout⟩
  · obtain ⟨u, hu, hd, hst, -, -, hhout, -⟩ := transact_admitted hblank (admits_zeroPayload s.strict rounds)
    exact ⟨u, hu, hd, hst, hhout⟩

/-! ### The final byte outside strict mode (R82) -/

theorem finalFlag_of_ne_zero {b : Byte} (h : b ≠ 0) : finalFlag b = true := bne_iff_ne.2 h

/-- The mixed V reads the final byte through F alone. -/
theorem mixed_congr_finalFlag (p : Payload) {b c : Byte} (h : finalFlag b = finalFlag c) :
    Reference.mixed { p with f := b } = Reference.mixed { p with f := c } := by
  simp only [Reference.mixed, h]

/-- So does the compression. -/
theorem compress_congr_finalFlag (p : Payload) {b c : Byte} (h : finalFlag b = finalFlag c) :
    Reference.compress { p with f := b } = Reference.compress { p with f := c } := by
  simp only [Reference.compress, mixed_congr_finalFlag p h]

theorem admits_lax (b : Byte) : admits false b = true := rfl

/-- Settles O39: CHK admits both requests, and they differ in nothing but a final byte that is read through F. -/
theorem nonzeroFinalBytesAreAliases : Obligations.NonzeroFinalBytesAreAliases := by
  unfold Obligations.NonzeroFinalBytesAreAliases
  intro p f hne
  have hflag : finalFlag f = finalFlag 1 := finalFlag_of_ne_zero hne
  have hcompress := compress_congr_finalFlag p hflag
  refine ⟨?_, fun s hblank hlax => ?_⟩
  · rw [response_of_admitted (decodePayload_encodePayload _) (admits_lax _),
      response_of_admitted (decodePayload_encodePayload _) (admits_lax _), hcompress]
  · have answer (b : Byte) := transact_admitted hblank (p := { p with f := b }) (hlax ▸ admits_lax b)
    obtain ⟨t, ht, -, tstatus, tf, tv, thout, tout⟩ := answer f
    obtain ⟨u, hu, -, ustatus, uf, uv, uhout, uout⟩ := answer 1
    refine ⟨t, u, ht, hu, tstatus.trans ustatus.symm, ?_, ?_, ?_, ?_⟩
    · rw [tout, uout, hcompress]
    · rw [tv, uv, mixed_congr_finalFlag p hflag]
    · rw [thout, uhout, hcompress]
    · rw [tf, uf, hflag]

/-! ### Reserved phase codes (R84) -/

/-- Settles O31: a reserved code is a reserved value, and the one that is named when FSM and STATUS hold none. -/
theorem reservedPhaseCodesStop : Obligations.ReservedPhaseCodesStop := by
  unfold Obligations.ReservedPhaseCodesStop
  refine ⟨fun _ _ => rfl, fun s code hp hcode => ?_⟩
  have hser : Phase.ser < code := BitVec.lt_def.2 (Nat.lt_of_lt_of_le (by decide) (BitVec.le_def.1 hcode))
  have hillegal : ¬s.Legal := fun ⟨_, _, hphase⟩ => BitVec.not_le.2 hser (hphase code hp)
  obtain ⟨r, hr⟩ := Option.ne_none_iff_exists'.1 (mt (State.reservedValue_eq_none_iff s).1 hillegal)
  exact ⟨⟨r, step_of_reserved hr⟩, fun hf hs => step_of_reserved (State.reservedValue_of_phase hf hs hp hser)⟩

/-! ### Placed words (log entry 8) -/

/-- A placed phase code is the phase that the next step executes. -/
theorem step_inFlight {s : State} (hs : s.status ≠ some Status.reserved) (code : BitVec 4) :
    step (s.inFlight code) = exec (decodePhase code) (s.inFlight code) := by
  rw [step_busy (s := s.inFlight code) rfl hs rfl rfl, runPhase_eq_exec]

/-- A placed request is the SUBMIT that the next step executes. -/
theorem step_place_request {s : State} (hs : s.status ≠ some Status.reserved) (hp : ∀ code ∈ s.phase, code ≤ Phase.ser)
    (bytes : List Byte) :
    step (s.place (.request bytes)) = exec (.submit bytes) { s with fsm := Fsm.idle, agenda := [] } :=
  step_command (s := s.place (.request bytes)) (held := []) ⟨show Fsm.idle ≠ Fsm.reserved by decide, hs, hp⟩ rfl (by simp) rfl

/-- Settles O42: the word is read as a phase code or as a request, and either is what runs next. -/
theorem placedWordsRunNext : Obligations.PlacedWordsRunNext := by
  unfold Obligations.PlacedWordsRunNext
  refine fun s hs => ⟨fun code => ?_, fun hp n w hn hw => ?_⟩
  · rw [State.withFetchWord, wireOfWord_phase]
    exact step_inFlight hs code
  · rw [State.withFetchWord, wireOfWord_request hn hw]
    exact step_place_request hs hp (bytesOfNat n w)

end Sys2Proof.Machine
end

section
/-! The textual form of requests (30_encoding.md R86, R88): a printed line is read back operand by operand. -/

namespace Sys2Proof.Machine.Assembly

/-! ### Operands -/

/-- An operand that its reader reads back stands behind its name. -/
theorem operand_append {α : Type} {name cs : Text} {read : Text → Option (α × Text)} {x : α × Text}
    (hname : skipSpaces (name ++ cs) = name ++ cs) (hread : read cs = some x) : operand name read (name ++ cs) = some x := by
  rw [operand, expect_append name cs hname]
  exact hread

theorem readMessage_printWords (m : Vector Word 16) (rest : Text) :
    readMessage (printWords m.toList ++ rest) = some (m, rest) :=
  (readMessage_bracket _).trans (readWords_printWords m rest (by decide))

/-- A byte in decimal, at the end of a line. -/
theorem readBelow_decimal_byte (b : Byte) : readBelow 256 (decimal 3 b.toNat) = some (b.toNat, []) := by
  have hb := b.isLt
  simpa using readBelow_decimal (k := 2) hb (by omega) (stops_nil 10) (by simp)

/-- The operands of a printed `blake2f` line are read as those of the payload. -/
theorem readBlake2f_printed (p : Payload) :
    readBlake2f ("rounds=".toList ++ (decimal 10 p.rounds.toNat ++
      (", h=".toList ++ (printWords p.h.toList ++
      (", m=".toList ++ (printWords p.m.toList ++
      (", t=".toList ++ (printWords p.t.toList ++
      (", f=".toList ++ decimal 3 p.f.toNat))))))))) = some (.blake2f p) := by
  have hrounds (rest : Text) : readBelow (2 ^ 32) (decimal 10 p.rounds.toNat ++ (", h=".toList ++ rest)) =
      some (p.rounds.toNat, ", h=".toList ++ rest) :=
    readBelow_decimal p.rounds.isLt (Nat.lt_trans p.rounds.isLt (by decide)) (stops_comma 10 _) (by simp)
  rw [readBlake2f, operand_append rfl (hrounds _)]
  dsimp only
  rw [operand_append rfl (readWords_printWords p.h _ (by decide))]
  dsimp only
  rw [operand_append rfl (readMessage_printWords p.m _)]
  dsimp only
  rw [operand_append rfl (readWords_printWords p.t _ (by decide))]
  dsimp only
  rw [operand_append rfl (readBelow_decimal_byte p.f)]
  simp [atEnd, skipSpaces]

/-! ### Lines -/

/-- A name and its operand add neither a quote nor a comment to a line. -/
theorem plain_operand {name value rest : Text} (hname : name.all plainChar = true) (hvalue : value.all plainChar = true)
    (hrest : rest.all plainChar = true) : (name ++ (value ++ rest)).all plainChar = true :=
  plain_append hname (plain_append hvalue hrest)

theorem plain_printPayload (p : Payload) : (printPayload p).all plainChar = true :=
  plain_operand (by decide) (plain_decimal 10 _) <|
  plain_operand (by decide) (plain_printWords _) <|
  plain_operand (by decide) (plain_printWords _) <|
  plain_operand (by decide) (plain_printWords _) <|
  plain_append (by decide) (plain_decimal 3 _)

/-- A line that begins as the printer begins a legal request has the operands of `blake2f`. -/
theorem assembleCommand_blake2f (cs : Text) :
    assembleCommand ("blake2f rounds=".toList ++ cs) = readBlake2f ("rounds=".toList ++ cs) := by
  simp [assembleCommand, expect, skipSpaces, afterPrefix]

/-- A printed `blake2f` line is assembled to the command of its payload. -/
theorem assembleLine_printPayload (p : Payload) : assembleLine (printPayload p) = some (.blake2f p) := by
  rw [assembleLine, dropComment_of_plain (plain_printPayload p)]
  exact (assembleCommand_blake2f _).trans (readBlake2f_printed p)

theorem skipSpaces_printBytes (bytes : List Byte) : skipSpaces (printBytes bytes) = printBytes bytes := by
  cases bytes with
  | nil => rfl
  | cons b bs => exact skipSpaces_of_digit ((hexDigits_begins 1 b.toNat).append (printBytes bs))

/-- A printed `blake2f.raw` line is assembled to the SUBMIT of its bytes. -/
theorem assembleLine_raw (bytes : List Byte) :
    assembleLine ("blake2f.raw ".toList ++ printBytes bytes) = some (.submit bytes) := by
  have hplain := plain_append (t := "blake2f.raw ".toList) (by decide) (plain_printBytes bytes)
  have hread : readRaw (' ' :: printBytes bytes) = some (.submit bytes) := by
    have hskip : skipSpaces (' ' :: printBytes bytes) = printBytes bytes := skipSpaces_printBytes bytes
    rw [readRaw, hskip, readHexBytes_printBytes]
    rfl
  rw [assembleLine, dropComment_of_plain hplain]
  exact hread

/-! ### Requests -/

/-- A request is printed as the `blake2f` line of its fields, or as the `blake2f.raw` line of its bytes. -/
theorem printRequest_cases (strict : Bool) (bytes : List Byte) :
    (∃ p, encodePayload p = bytes ∧ printRequest strict bytes = printPayload p) ∨
      printRequest strict bytes = "blake2f.raw ".toList ++ printBytes bytes := by
  by_cases h : bytes.length = 213
  · obtain ⟨p, rfl⟩ := exists_encodePayload_eq h
    rw [printRequest, decodeRequest_encodePayload]
    split_ifs
    · exact .inl ⟨p, rfl, rfl⟩
    · exact .inl ⟨p, rfl, rfl⟩
    · exact .inr rfl
  · rw [printRequest, decodeRequest_of_length_ne h]
    exact .inr rfl

/-- Settles O5: either line is assembled to the SUBMIT of the bytes it was printed from. -/
theorem printedRequestsAssembleToTheirBytes : Obligations.PrintedRequestsAssembleToTheirBytes := by
  unfold Obligations.PrintedRequestsAssembleToTheirBytes
  intro strict bytes
  obtain ⟨p, rfl, hline⟩ | hline := printRequest_cases strict bytes
  · rw [hline, assembleLine_printPayload]
    rfl
  · rw [hline, assembleLine_raw]
    rfl

end Sys2Proof.Machine.Assembly
end

section
/-! The requester's commands (40_transaction.md R101, R102, R108): what SUBMIT latches, what CONSUME delivers, when either holds, and
the requests that CHK rejects. -/

namespace Sys2Proof.Machine

/-! ### What a command that is not enabled does (R102) -/

/-- What is enabled in IDLE only holds in BUSY and DONE. -/
theorem readFsm_of_not_idle {s : State} (h : s.fsm = Fsm.busy ∨ s.fsm = Fsm.done) (enabled : Out) :
    (readFsm s fun fsm => if fsm = Fsm.idle then enabled else .next s) = .next s := by
  obtain h | h := h
  · rw [readFsm_busy h, if_neg (by decide)]
  · rw [readFsm_done h, if_neg (by decide)]

theorem execSubmit_held {s : State} (h : s.fsm = Fsm.busy ∨ s.fsm = Fsm.done) (bytes : List Byte) :
    execSubmit bytes s = .next s :=
  readFsm_of_not_idle h _

theorem transact_held {s : State} (h : s.fsm = Fsm.busy ∨ s.fsm = Fsm.done) (bytes : List Byte) :
    transact bytes s = .next s :=
  readFsm_of_not_idle h _

theorem execConsume_held {s : State} (h : s.fsm = Fsm.idle ∨ s.fsm = Fsm.busy) : execConsume s = .next s := by
  obtain h | h := h
  · rw [execConsume, readFsm_idle h, if_neg (by decide)]
  · rw [execConsume, readFsm_busy h, if_neg (by decide)]

/-- Settles O36: each of the six rows is the transaction of its bytes, which holds. -/
theorem requestRowsHoldWhileNotIdle : Obligations.RequestRowsHoldWhileNotIdle := by
  unfold Obligations.RequestRowsHoldWhileNotIdle
  intro s p bytes h m t last rounds hfsm i hi
  fin_cases hi <;> exact transact_held hfsm _

/-! ### SUBMIT and CONSUME -/

/-- IN after acceptance: the first 213 bytes of the request, over what IN held before (10_state.md R22). -/
theorem Memory.read_latched (m : Memory) (bytes : List Byte) (k : Nat) :
    (m.writeAll 0 (bytes.take 213)).read k = if k < min bytes.length 213 then bytes[k]? else m.read k := by
  rw [Memory.read_writeAll, List.length_take, Nat.zero_add, Nat.min_comm, Nat.sub_zero]
  by_cases hk : k < min bytes.length 213
  · rw [if_pos ⟨Nat.zero_le k, hk⟩, if_pos hk, List.getElem?_take_of_lt (by omega)]
  · rw [if_neg fun h => hk h.2, if_neg hk]

/-- Settles O9: enabled, SUBMIT is the acceptance of the request; otherwise it holds. -/
theorem submitLatchesTheRequest : Obligations.SubmitLatchesTheRequest := by
  unfold Obligations.SubmitLatchesTheRequest
  refine fun s bytes => ⟨fun hidle => ?_, fun h => execSubmit_held h bytes⟩
  refine ⟨_, (execSubmit_idle hidle bytes).trans (accept_eq bytes s), rfl, fun k hk => ?_, fun k hk => ?_⟩
  · exact (Memory.read_latched s.inBuf bytes k).trans (if_pos hk)
  · exact (Memory.read_latched s.inBuf bytes k).trans (if_neg hk)

/-- Settles O10: CONSUME of an OK response, of an error, and while it holds. -/
theorem consumeDeliversTheResponse : Obligations.ConsumeDeliversTheResponse := by
  unfold Obligations.ConsumeDeliversTheResponse
  refine fun s => ⟨fun out => execConsume_ok, fun c hdone hstatus hc => ?_, execConsume_held⟩
  obtain rfl | rfl := hc
  · exact execConsume_error hdone hstatus (by decide) (by decide)
  · exact execConsume_error hdone hstatus (by decide) (by decide)

/-! ### Requests that CHK rejects (60_exceptions.md R202, R203) -/

theorem stepBound_pos (bytes : List Byte) : 0 < stepBound bytes := by
  unfold stepBound
  split <;> omega

/-- A request that is DONE after CHK: its row is acceptance and that one phase. -/
theorem transact_of_chk_done {s u t : State} {bytes : List Byte} (hidle : s.fsm = Fsm.idle) (hacc : accept bytes s = .next u)
    (hchk : execPhaseChk u = .next t) (hdone : t.fsm = Fsm.done) : transact bytes s = .next t := by
  obtain ⟨hbusy, hphase⟩ : u.fsm = Fsm.busy ∧ u.phase = some Phase.chk := by
    rw [accept_eq] at hacc
    cases hacc
    exact ⟨rfl, rfl⟩
  obtain ⟨n, hn⟩ := Nat.exists_eq_succ_of_ne_zero (stepBound_pos bytes).ne'
  have hstep : sequencerStep u = .next t := (sequencerStep_busy hbusy hphase).trans hchk
  rw [transact, readFsm_idle hidle, if_pos rfl, hacc, andThen_next, hn, sequencerSteps, if_pos hbusy, hstep, andThen_next,
    sequencerSteps_of_not_busy (by rw [hdone]; decide)]

theorem rejectsFinalByte_of_ne {b : Byte} (h0 : b ≠ 0x00) (h1 : b ≠ 0x01) : rejectsFinalByte b = true := by
  rw [rejectsFinalByte_eq_not_legal, Bool.not_eq_true', ← Bool.not_eq_true, legalStrictFlag_iff]
  exact not_or.2 ⟨h0, h1⟩

/-- CHK of a request just accepted in strict mode, whose final byte is illegal. -/
theorem execPhaseChk_rejects {u : State} {p : Payload} (hlen : u.inLen = some 213) (hstrict : u.strict = true)
    (hread : u.inBuf.read 212 = (encodePayload p)[212]?) (hrej : rejectsFinalByte p.f = true) :
    execPhaseChk u = .next { u with fsm := Fsm.done, status := some Status.invalidFinalFlag } := by
  rw [execPhaseChk_strict hlen hstrict (hread.trans (encodePayload_getElem?_final p)), if_pos hrej]

/-- Settles O34: such a request is accepted, and CHK ends it with its error. -/
theorem illegalRequestsGetTheirErrorResponse : Obligations.IllegalRequestsGetTheirErrorResponse := by
  unfold Obligations.IllegalRequestsGetTheirErrorResponse
  refine fun s hidle => ⟨fun bytes hlen => ?_, fun p hstrict h0 h1 => ?_⟩
  · refine ⟨_, transact_of_chk_done hidle (accept_eq bytes s) (execPhaseChk_wrong_length rfl hlen) rfl, rfl,
      fun k hk => ?_, fun k hk => ?_⟩
    · exact (Memory.read_latched s.inBuf bytes k).trans (if_pos hk)
    · exact (Memory.read_latched s.inBuf bytes k).trans (if_neg hk)
  · have hlen := encodePayload_length p
    have hread := Memory.read_latched s.inBuf (encodePayload p)
    rw [hlen, Nat.min_self] at hread
    have hacc := accept_eq (encodePayload p) s
    rw [hlen] at hacc
    refine ⟨_, transact_of_chk_done hidle hacc (execPhaseChk_rejects (p := p) rfl hstrict ?_ (rejectsFinalByte_of_ne h0 h1)) rfl,
      rfl, fun k hk => ?_, fun k hk => ?_⟩
    · exact (hread 212).trans (if_pos (by decide))
    · exact (hread k).trans (if_pos hk)
    · exact (hread k).trans (if_neg (by omega))

end Sys2Proof.Machine
end

section
/-! The step (40_transaction.md R102, R103): what runs next, and the invariant that every step keeps. -/

namespace Sys2Proof.Machine

/-! ### What runs next -/

/-- Settles O40: the step's choice of a phase while BUSY, with and without a turn to use up. -/
theorem stepRunsThePhase : Obligations.StepRunsThePhase := by
  unfold Obligations.StepRunsThePhase
  refine fun s code hbusy hstatus hphase => ⟨fun hhold => ?_, fun rest hpass => ?_⟩
  · rw [step_busy hbusy hstatus hphase hhold, runPhase_eq_exec]
  · rw [step_busy_pass hbusy hstatus hphase hpass, runPhase_eq_exec]

/-- Settles O41: what the statement asks of each command is that the state enables it. -/
theorem stepRunsAnEnabledCommand : Obligations.StepRunsAnEnabledCommand := by
  unfold Obligations.StepRunsAnEnabledCommand
  intro s c held rest hagenda hheld hlegal hcommand
  refine step_command hlegal hagenda hheld ?_
  cases c with
  | submit bytes => exact (s.enables_submit bytes).2 hcommand
  | consume => exact s.enables_consume.2 hcommand
  | reset => exact s.enables_reset

/-! ### The invariant, by the FSM state -/

theorem State.Inv.blank {s : State} (h : s.Inv) (hidle : s.fsm = Fsm.idle) : s.endTransaction = s := by
  obtain ⟨-, h⟩ | ⟨hfsm, -⟩ | ⟨hfsm, -⟩ := h
  · exact h
  · simp [hfsm] at hidle
  · simp [hfsm] at hidle

theorem State.Inv.inFlight {s : State} (h : s.Inv) (hbusy : s.fsm = Fsm.busy) : ∃ bytes, s.InFlight bytes := by
  obtain ⟨hfsm, -⟩ | ⟨-, h⟩ | ⟨hfsm, -⟩ := h
  · simp [hfsm] at hbusy
  · exact h
  · simp [hfsm] at hbusy

theorem State.Inv.phase_of_busy {s : State} (h : s.Inv) (hbusy : s.fsm = Fsm.busy) : ∃ code, s.phase = some code :=
  have ⟨_, hflight⟩ := h.inFlight hbusy
  hflight.phase_isSome

theorem State.Inv.answered {s : State} (h : s.Inv) (hdone : s.fsm = Fsm.done) : ∃ bytes, s.Answered bytes := by
  obtain ⟨hfsm, -⟩ | ⟨hfsm, -⟩ | ⟨-, h⟩ := h
  · simp [hfsm] at hdone
  · simp [hfsm] at hdone
  · exact h

/-- Settles O52: the response that is ready in DONE is the one of the request latched. -/
theorem consumedResponseIsAFunctionOfTheRequest : Obligations.ConsumedResponseIsAFunctionOfTheRequest := by
  unfold Obligations.ConsumedResponseIsAFunctionOfTheRequest
  intro s h hdone
  obtain ⟨bytes, hans⟩ := h.answered hdone
  exact ⟨bytes, hans.1, execConsume_answered hdone hans⟩

/-! ### What keeps the invariant -/

/-- Whether a block is blank does not depend on what is the other agents'. -/
theorem State.blank_withAgents {s : State} (h : s.endTransaction = s) (turns : List Turn) (responses : List Response) :
    ({ s with agenda := turns, delivered := responses } : State).endTransaction =
      { s with agenda := turns, delivered := responses } :=
  congrArg (fun s : State => { s with agenda := turns, delivered := responses }) h

/-- The invariant says nothing of the turns to come. -/
theorem State.Inv.withAgenda {s : State} (h : s.Inv) (turns : List Turn) : ({ s with agenda := turns } : State).Inv := by
  obtain ⟨hfsm, h⟩ | h | h := h
  · exact .inl ⟨hfsm, State.blank_withAgents h turns s.delivered⟩
  · exact .inr (.inl h)
  · exact .inr (.inr h)

theorem runPhase_keeps_inv {s t : State} {code : BitVec 4} (h : s.Inv) (hbusy : s.fsm = Fsm.busy) (hphase : s.phase = some code)
    (hrun : runPhase code s = .next t) : t.Inv := by
  obtain ⟨bytes, hflight⟩ := h.inFlight hbusy
  obtain ⟨u, hu, -, -, -, hcase⟩ := inFlight_step hbusy hflight hphase
  obtain rfl : u = t := Host.Outcome.next.inj (hu.symm.trans hrun)
  obtain ⟨hfsm, hflight, -⟩ | ⟨hfsm, hans, -⟩ := hcase
  · exact .inr (.inl ⟨hfsm, bytes, hflight⟩)
  · exact .inr (.inr ⟨hfsm, bytes, hans⟩)

/-- A command keeps the invariant, enabled or not. -/
theorem handshake_keeps_inv {s t : State} {c : Handshake} (h : s.Inv) (hexec : exec (decodeHandshake c) s = .next t) : t.Inv := by
  cases c with
  | submit bytes =>
    change execSubmit bytes s = .next t at hexec
    obtain ⟨-, hexec⟩ := readFsm_next hexec
    split at hexec
    · obtain ⟨u, hu, hfsm, hflight, -⟩ := accept_inFlight (h.blank ‹_›) bytes
      obtain rfl : u = t := Host.Outcome.next.inj (hu.symm.trans hexec)
      exact .inr (.inl ⟨hfsm, bytes, hflight⟩)
    · cases hexec
      exact h
  | consume =>
    obtain rfl | ⟨d, rfl⟩ := execConsume_next hexec
    · exact h
    · exact .inl ⟨rfl, rfl⟩
  | reset =>
    cases hexec
    exact .inl ⟨rfl, rfl⟩

/-- A turn of the environment that is not refused changes the flag of a blank block, or nothing. -/
theorem setStrictFinalFlag_keeps_inv {s t : State} {value : Bool} (h : s.Inv) (hset : setStrictFinalFlag value s = .next t) :
    t.Inv := by
  unfold setStrictFinalFlag at hset
  split at hset
  · cases hset
  · rename_i hallowed
    cases hset
    by_cases hvalue : s.strict = value
    · subst hvalue
      exact h
    · have hidle : s.fsm = Fsm.idle := by_contra fun hfsm => hallowed ⟨hvalue, hfsm⟩
      exact .inl ⟨hidle, congrArg (fun s : State => { s with strict := value }) (h.blank hidle)⟩

/-- A BUSY block lets no turn wait while others go first. -/
theorem eq_nil_of_heldTurn_busy {s : State} {held : List Turn} (hbusy : s.fsm = Fsm.busy)
    (hheld : ∀ turn ∈ held, s.heldTurn turn = true) : held = [] := by
  refine List.eq_nil_iff_forall_not_mem.2 fun turn hmem => ?_
  obtain ⟨hfsm, -⟩ | ⟨hfsm, -⟩ := State.heldTurn_iff.1 (hheld turn hmem)
  · simp [hbusy] at hfsm
  · simp [hbusy] at hfsm

/-- A turn in which the requester passes keeps the invariant: a BUSY block executes its phase, another stays as it is. -/
theorem step_pass_keeps_inv {s t : State} {held rest : List Turn} (h : s.Inv) (hagenda : s.agenda = held ++ .pass :: rest)
    (hheld : ∀ turn ∈ held, s.heldTurn turn = true) (hstep : step s = .next t) : t.Inv := by
  have hlegal := h.legal
  by_cases hbusy : s.fsm = Fsm.busy
  · obtain ⟨-, hstatus, -⟩ := hlegal
    obtain rfl := eq_nil_of_heldTurn_busy hbusy hheld
    obtain ⟨code, hphase⟩ := h.phase_of_busy hbusy
    rw [step_busy_pass hbusy hstatus hphase hagenda] at hstep
    exact runPhase_keeps_inv (h.withAgenda rest) hbusy hphase hstep
  · rw [step_held_pass hlegal hbusy hagenda hheld] at hstep
    cases hstep
    exact h.withAgenda _

/-- Settles O50, by the turn that is taken next: none, and the block takes its own step or stays; or a pass, a turn of the environment
or a command. -/
theorem everyStepKeepsTheInvariant : Obligations.EveryStepKeepsTheInvariant := by
  unfold Obligations.EveryStepKeepsTheInvariant
  intro s t h hstep
  have hlegal := h.legal
  have ⟨hreserved, hstatus, _⟩ := hlegal
  obtain ⟨-, ⟨hbusy, hhold⟩ | ⟨hbusy, hheld⟩⟩ | ⟨held, turn, rest, hagenda, hheld, -, henabled⟩ :=
    s.nextTurn_cases hreserved s.agenda
  · obtain ⟨code, hphase⟩ := h.phase_of_busy hbusy
    rw [step_busy hbusy hstatus hphase hhold] at hstep
    exact runPhase_keeps_inv h hbusy hphase hstep
  · rw [step_held hlegal hbusy hheld] at hstep
    cases hstep
    exact h
  · cases turn with
    | pass => exact step_pass_keeps_inv h hagenda hheld hstep
    | setStrictFinalFlag value =>
      rw [step_setStrictFinalFlag hlegal hagenda hheld] at hstep
      exact setStrictFinalFlag_keeps_inv (h.withAgenda _) hstep
    | command c =>
      rw [step_command hlegal hagenda hheld (henabled c rfl)] at hstep
      exact handshake_keeps_inv (h.withAgenda _) hstep

end Sys2Proof.Machine
end

section
/-! The transaction end to end (40_transaction.md R100, R109): a request row and the steps of the machine, from a blank block to DONE
and on to the requester. -/

namespace Sys2Proof.Machine

/-! ### A request row (R100) -/

/-- Strict mode admits the final bytes 0 and 1, the other mode every one (41_decoder.md R121). -/
theorem admits_of_legal {strict : Bool} {b : Byte} (h : strict = true → b = 0x00 ∨ b = 0x01) : admits strict b = true := by
  rw [admits_true_iff]
  intro hstrict
  obtain rfl | rfl := h hstrict <;> rfl

/-- Where its request was admitted, a ready response is the OK one. -/
theorem State.Answered.ok_of_admitted {s : State} {p : Payload} (h : s.Answered (encodePayload p))
    (ha : admits s.strict p.f = true) : s.HoldsFields p ∧ s.phase = some Phase.ser ∧ s.i = lastRound p := by
  have hok := (h.of_admitted ha).1
  obtain ⟨-, ⟨-, -, -, -, hne, -⟩ | ⟨q, hq, -, hfields, hphase, hi, -⟩⟩ := h
  · exact absurd hok hne
  · obtain rfl : p = q := Option.some.inj ((decodePayload_encodePayload p).symm.trans hq)
    exact ⟨hfields, hphase, hi⟩

/-- An empty buffer, written from its start, holds what was written and nothing else. -/
theorem Memory.read_writeAll_nil (bs : List Byte) (k : Nat) : (Memory.writeAll [] 0 bs).read k = bs[k]? := by
  rw [Memory.read_writeAll, Memory.read_nil]
  split
  · rfl
  · exact (List.getElem?_eq_none (by omega)).symm

theorem State.HoldsRequest.read_encodePayload {s : State} {p : Payload} (h : s.HoldsRequest (encodePayload p)) (k : Nat) :
    s.inBuf.read k = (encodePayload p)[k]? := by
  rw [h.2, List.take_of_length_le (encodePayload_length p).le, Memory.read_writeAll_nil]

/-- Settles O33: both rows are the transaction of the payload's bytes, and its response is ready. -/
theorem blake2fCompressesAndSerializes : Obligations.Blake2fCompressesAndSerializes := by
  unfold Obligations.Blake2fCompressesAndSerializes
  intro s p hblank hfinal i hi
  obtain ⟨t, ht, hdone, hans, hstrict, hagenda, hdelivered⟩ := transact_answers hblank (encodePayload p)
  have hadmits : admits t.strict p.f = true := hstrict ▸ admits_of_legal hfinal
  obtain ⟨hstatus, -, hv, hhout, hout⟩ := hans.of_admitted hadmits
  obtain ⟨hfields, hphase, hround⟩ := hans.ok_of_admitted hadmits
  obtain ⟨hrequest, -⟩ := hans
  have ⟨hinLen, _⟩ := hrequest
  have hexec : exec i s = .next t := by fin_cases hi <;> exact ht
  refine ⟨t, hexec, hdone, hstatus, ?_, hhout, hv, hphase, hround, hfields, ?_, hrequest.read_encodePayload, hstrict, hagenda,
    hdelivered⟩
  · rw [hout]
    exact Memory.read_writeAll_nil _
  · rw [hinLen, encodePayload_length]

/-! ### The steps of a transaction (R103, R109) -/

/-- A request submitted to a blank block whose requester then holds: BUSY for exactly the steps of the transaction, then DONE with the
response ready, in the state that the request's row gives. -/
theorem run_submit {s : State} {bytes : List Byte} {rest : List Turn} (hblank : s.endTransaction = s)
    (hagenda : s.agenda = .command (.submit bytes) :: rest) (hhold : holding rest = true) :
    (∀ k, k < Reference.steps s.strict bytes → ∃ u, run (1 + k) s = .next u ∧ u.fsm = Fsm.busy) ∧
      ∃ t, run (1 + Reference.steps s.strict bytes) s = .next t ∧ transact bytes { s with agenda := rest } = .next t ∧
        t.fsm = Fsm.done ∧ t.Answered bytes ∧ AgentFrame { s with agenda := rest } t := by
  have hidle := (State.blank_of_endTransaction hblank).1
  have hlegal : s.Legal := State.Inv.legal (.inl ⟨hidle, hblank⟩)
  obtain ⟨u, hacc, hbusy, hflight, hremaining, hustrict, huagenda, hudelivered⟩ :=
    accept_inFlight (State.blank_withAgents hblank rest s.delivered) bytes
  have hsubmit : step s = .next u := by
    rw [step_command (held := []) hlegal hagenda (by simp) ((s.enables_submit bytes).2 hidle)]
    exact (execSubmit_idle (s := { s with agenda := rest }) hidle bytes).trans hacc
  have hrun (k : Nat) : run (1 + k) s = run k u := by
    rw [Nat.add_comm, run_succ, hsubmit, andThen_next]
  obtain ⟨t, hseq, hdone, hans, htstrict, htagenda, htdelivered, hmachine⟩ := sequencerSteps_inFlight _ hbusy hflight hremaining
  obtain ⟨hend, hbefore⟩ := hmachine (huagenda ▸ hhold)
  refine ⟨fun k hk => ?_, t, (hrun _).trans hend, ?_, hdone, hans,
    ⟨htstrict.trans hustrict, htagenda.trans huagenda, htdelivered.trans hudelivered⟩⟩
  · obtain ⟨v, hv, hvbusy, -⟩ := hbefore k hk
    exact ⟨v, (hrun k).trans hv, hvbusy⟩
  · rw [transact, readFsm_idle (s := { s with agenda := rest }) hidle, if_pos rfl, hacc, andThen_next]
    exact hseq _ (stepBound_ge s.strict bytes)

/-- Settles O53, by the run of a submitted request. -/
theorem transactionsTakeTheExactStepCount : Obligations.TransactionsTakeTheExactStepCount := by
  unfold Obligations.TransactionsTakeTheExactStepCount
  intro s bytes rest hblank hagenda hhold
  obtain ⟨hbefore, t, ht, -, hdone, -⟩ := run_submit hblank hagenda hhold
  exact ⟨hbefore, t, ht, hdone⟩

/-- The row that a byte string decodes to is the transaction of these bytes, in either mode. -/
theorem exec_decodeRequest (strict : Bool) (bytes : List Byte) (s : State) :
    exec (decodeRequest strict bytes) s = transact bytes s := by
  by_cases hlen : bytes.length = 213
  · obtain ⟨p, rfl⟩ := exists_encodePayload_eq hlen
    rw [decodeRequest_encodePayload]
    split_ifs
    · rfl
    · rfl
    · rfl
  · rw [decodeRequest_of_length_ne hlen]
    rfl

/-- Settles O55: the run of a submitted request ends in the state of its row. -/
theorem requestRowsRefineToSteps : Obligations.RequestRowsRefineToSteps := by
  unfold Obligations.RequestRowsRefineToSteps
  intro s bytes rest hblank hagenda hhold
  obtain ⟨-, t, ht, hrow, -⟩ := run_submit hblank hagenda hhold
  rw [exec_decodeRequest, hrow]
  exact ht

/-! ### The response reaches the requester (R108) -/

/-- The end of a transaction that began in a blank block leaves that block, but for what is the other agents'. -/
theorem State.endTransaction_eq_blank {s t : State} (hblank : s.endTransaction = s) (hstrict : t.strict = s.strict)
    (turns : List Turn) (responses : List Response) :
    { t.endTransaction with agenda := turns, delivered := responses } = { s with agenda := turns, delivered := responses } :=
  calc { t.endTransaction with agenda := turns, delivered := responses }
      = { s.endTransaction with agenda := turns, delivered := responses } := by simp [State.endTransaction, hstrict]
    _ = { s with agenda := turns, delivered := responses } := by rw [hblank]

/-- In DONE the CONSUME behind held commands is taken and delivers the ready response. -/
theorem step_consume_answered {t : State} {bytes : List Byte} {held rest : List Turn} (hdone : t.fsm = Fsm.done)
    (hans : t.Answered bytes) (hagenda : t.agenda = held ++ .command .consume :: rest)
    (hheld : ∀ turn ∈ held, t.heldTurn turn = true) :
    step t =
      .next { t.endTransaction with
              agenda := held ++ rest, delivered := t.delivered ++ [Reference.response t.strict bytes] } := by
  rw [step_command (State.Inv.legal (.inr (.inr ⟨hdone, bytes, hans⟩))) hagenda hheld (t.enables_consume.2 hdone)]
  exact execConsume_answered (s := { t with agenda := held ++ rest }) hdone hans

/-- A transaction with its CONSUME, from a blank block: the response is delivered, the block is blank again, and the SUBMITs of later
requests that stood before the CONSUME held all the while. -/
theorem run_submit_consume {s : State} {bytes : List Byte} {rest : List Turn} (later : List (List Byte))
    (hblank : s.endTransaction = s)
    (hagenda : s.agenda =
      .command (.submit bytes) :: (later.map (fun request => .command (.submit request)) ++ .command .consume :: rest)) :
    run (1 + Reference.steps s.strict bytes + 1) s =
      .next { s with
              agenda := later.map (fun request => .command (.submit request)) ++ rest
              delivered := s.delivered ++ [Reference.response s.strict bytes] } := by
  have hhold : holding (later.map (fun request => .command (.submit request)) ++ .command .consume :: rest) = true := by
    cases later <;> rfl
  obtain ⟨-, t, ht, -, hdone, hans, frame⟩ := run_submit hblank hagenda hhold
  have hheld : ∀ turn ∈ later.map (fun request => Turn.command (.submit request)), t.heldTurn turn = true := by
    simp [State.heldTurn, hdone]
  rw [run_add, ht, andThen_next, run_succ, step_consume_answered hdone hans frame.agenda hheld, andThen_next, run_zero,
    State.endTransaction_eq_blank hblank frame.strict, frame.strict, frame.delivered]

/-- Settles O54: the transaction with its CONSUME, no request waiting. -/
theorem transactionDeliversTheReferenceResponse : Obligations.TransactionDeliversTheReferenceResponse := by
  unfold Obligations.TransactionDeliversTheReferenceResponse
  intro s bytes rest hblank hagenda
  exact run_submit_consume [] hblank hagenda

/-- Settles O58: one transaction while the second request waits, then the transaction of that request. -/
theorem consumeLiftsTheHold : Obligations.ConsumeLiftsTheHold := by
  unfold Obligations.ConsumeLiftsTheHold
  intro s first second rest hblank hagenda
  have hfirst := run_submit_consume [second] hblank hagenda
  have hblank' := State.blank_withAgents hblank (.command (.submit second) :: .command .consume :: rest)
    (s.delivered ++ [Reference.response s.strict first])
  have hsecond := run_submit_consume (bytes := second) (rest := rest) [] hblank' rfl
  refine (run_add _ _ s).trans ?_
  rw [hfirst, andThen_next]
  refine hsecond.trans ?_
  rw [List.append_assoc]
  rfl

end Sys2Proof.Machine
end

section
/-! The decoder (41_decoder.md): the checks of CHK, and the numbers that DEC reads from the 213 bytes of IN. -/

namespace Sys2Proof

/-! ### The numbers of consecutive bytes (00_scope.md R11) -/

/-- A word read little-endian has the number of its bytes: eight bytes never overflow it. -/
theorem toNat_le64 {B : List Byte} {o : Nat} (h : o + 8 ≤ B.length) : (le64 B o).toNat = leNat (slice B o 8) := by
  rw [← leNat_le64bytes, le64, le64bytes_ofNat_leNat (slice_length h)]

theorem toNat_be32 {B : List Byte} {o : Nat} (h : o + 4 ≤ B.length) : (be32 B o).toNat = beNat (slice B o 4) := by
  rw [← beNat_be32bytes, be32, be32bytes_ofNat_beNat (slice_length h)]

theorem slice_map_range (B : Nat → Byte) {o n size : Nat} (h : o + n ≤ size) :
    slice ((List.range size).map B) o n = (List.range n).map fun j => B (o + j) := by
  refine List.ext_getElem ?_ fun j h1 h2 => ?_
  · simp [slice]
    omega
  · simp [slice]

theorem leNat_map_range (B : Nat → Byte) (n : Nat) :
    leNat ((List.range n).map B) = ∑ j ∈ Finset.range n, (B j).toNat * 2 ^ (8 * j) := by
  induction n generalizing B with
  | zero => rfl
  | succ n ih =>
    have hshift (j : Nat) : (B (j + 1)).toNat * 2 ^ (8 * (j + 1)) = 256 * ((B (j + 1)).toNat * 2 ^ (8 * j)) := by
      ring
    rw [List.range_succ_eq_map, List.map_cons, List.map_map, leNat, ih, Finset.sum_range_succ', Finset.mul_sum]
    simp only [Function.comp_apply, Nat.succ_eq_add_one, hshift]
    omega

theorem toNat_le64_map_range (B : Nat → Byte) {o size : Nat} (h : o + 8 ≤ size) :
    (le64 ((List.range size).map B) o).toNat = ∑ j ∈ Finset.range 8, (B (o + j)).toNat * 2 ^ (8 * j) := by
  rw [toNat_le64 (by simpa using h), slice_map_range B h, leNat_map_range]

theorem beNat_four (a b c d : Byte) :
    beNat [a, b, c, d] = a.toNat * 2 ^ 24 + b.toNat * 2 ^ 16 + c.toNat * 2 ^ 8 + d.toNat := by
  simp only [beNat, List.reverse_cons, List.reverse_nil, List.nil_append, List.cons_append, leNat]
  omega

/-- The fields of 213 bytes have the numbers of their bytes, `rounds` big-endian and the words little-endian (R123 to R127). -/
theorem decodePayload_map_range (B : Nat → Byte) :
    ∃ p, decodePayload ((List.range 213).map B) = some p ∧
      p.rounds.toNat = (B 0).toNat * 2 ^ 24 + (B 1).toNat * 2 ^ 16 + (B 2).toNat * 2 ^ 8 + (B 3).toNat ∧
      (∀ k : Fin 8, p.h[k].toNat = ∑ j ∈ Finset.range 8, (B (4 + 8 * k + j)).toNat * 2 ^ (8 * j)) ∧
      (∀ k : Fin 16, p.m[k].toNat = ∑ j ∈ Finset.range 8, (B (68 + 8 * k + j)).toNat * 2 ^ (8 * j)) ∧
      (∀ k : Fin 2, p.t[k].toNat = ∑ j ∈ Finset.range 8, (B (196 + 8 * k + j)).toNat * 2 ^ (8 * j)) ∧ p.f = B 212 := by
  refine ⟨_, if_pos (by simp), ?_, fun k => ?_, fun k => ?_, fun k => ?_, by simp⟩
  · rw [toNat_be32 (by simp), slice_map_range B (by decide)]
    exact beNat_four _ _ _ _
  all_goals rw [Fin.getElem_fin, Vector.getElem_ofFn, toNat_le64_map_range B (by omega)]

end Sys2Proof

namespace Sys2Proof.Machine

/-! ### DEC (R123 to R130) -/

theorem finalFlag_eq_decide (b : Byte) : finalFlag b = decide (b ≠ 0) := by
  simp [finalFlag, bne, Bool.beq_eq_decide_eq]

/-- Settles O17: DEC writes the fields that the 213 bytes decode to, and each of them has the number of its bytes. -/
theorem decAssemblesEveryField : Obligations.DecAssemblesEveryField := by
  unfold Obligations.DecAssemblesEveryField
  intro s B hread
  obtain ⟨p, hp, hrounds, hh, hm, ht, hf⟩ := decodePayload_map_range B
  refine ⟨p.rounds, p.h, p.m, p.t, ?_, hrounds, hh, hm, ht⟩
  rw [← hf, ← finalFlag_eq_decide]
  exact execPhaseDec_of_read hp fun j hj => by simp [hread j hj, hj]

/-- DEC reads IN from offset 0 on, so its read stops at the first byte that holds no value. -/
theorem execPhaseDec_of_byte_none {s : State} {k : Nat} (hk : k < 213) (hnone : s.inBuf.read k = none)
    (hsome : ∀ j, j < k → (s.inBuf.read j).isSome) : execPhaseDec s = .fault (.noByte .input k) := by
  rw [execPhaseDec, memRead_fault .input s _ k 0 _ hk (by simp) (by simpa using hsome) (by simpa using hnone), Nat.zero_add]

/-- Settles O18, by the read of the 213 bytes. -/
theorem decFaultsOnAMissingByte : Obligations.DecFaultsOnAMissingByte := by
  unfold Obligations.DecFaultsOnAMissingByte
  exact fun _ _ hk hnone hsome => execPhaseDec_of_byte_none hk hnone hsome

/-! ### CHK (R120 to R122) -/

/-- Settles O14, by the length check, which comes before any read of IN. -/
theorem chkRejectsEveryOtherLength : Obligations.ChkRejectsEveryOtherLength := by
  unfold Obligations.ChkRejectsEveryOtherLength
  exact fun _ _ hlen hne => execPhaseChk_wrong_length hlen hne

/-- CHK passes a request of 213 bytes to DEC when strict mode, if it is on, finds a final byte of 0 or 1. -/
theorem execPhaseChk_passes {s : State} (hlen : s.inLen = some 213)
    (hfinal : s.strict = true → ∃ byte, s.inBuf.read 212 = some byte ∧ (byte = 0x00 ∨ byte = 0x01)) :
    execPhaseChk s = .next { s with phase := some Phase.dec } := by
  by_cases hstrict : s.strict = true
  · obtain ⟨byte, hread, hlegal⟩ := hfinal hstrict
    have hadmits : rejectsFinalByte byte = false := admits_true_iff.1 (admits_of_legal fun _ => hlegal) rfl
    rw [execPhaseChk_strict hlen hstrict hread, hadmits, if_neg Bool.false_ne_true]
  · exact execPhaseChk_lax hlen (Bool.not_eq_true _ ▸ hstrict)

/-- Settles O15: the final-flag check of strict mode raises exactly for the bytes it rejects, and the other mode has no such check. -/
theorem chkRejectsFinalBytesInStrictMode : Obligations.ChkRejectsFinalBytesInStrictMode := by
  unfold Obligations.ChkRejectsFinalBytesInStrictMode
  intro s byte hlen hread
  refine ⟨fun hstrict h0 h1 => ?_, fun _ hlegal => ?_, fun hlax => ?_⟩
  · exact (execPhaseChk_strict hlen hstrict hread).trans (if_pos (rejectsFinalByte_of_ne h0 h1))
  · exact execPhaseChk_passes hlen fun _ => ⟨byte, hread, hlegal⟩
  · exact execPhaseChk_lax hlen hlax

/-- Settles O16: neither check raises. -/
theorem chkPassesLegalRequestsToDec : Obligations.ChkPassesLegalRequestsToDec := by
  unfold Obligations.ChkPassesLegalRequestsToDec
  exact fun _ hlen hfinal => execPhaseChk_passes hlen hfinal

end Sys2Proof.Machine
end

section
/-! The mixer's operators and tables (42_mixer.md R140 to R149): addition, rotation, the lane functions, the ROMs and the schedule. -/

namespace Sys2Proof.Machine

/-! ### Word operators (R140, R142, R150, R152) -/

theorem toNat_add64 (a b : Word) : (add64 a b).toNat = (a.toNat + b.toNat) % 2 ^ 64 := BitVec.toNat_add a b

/-- Settles O6: the sum that wrapped once more gives the wrapped sum of all three. -/
theorem additionWrapsModulo64Bits : Obligations.AdditionWrapsModulo64Bits := by
  unfold Obligations.AdditionWrapsModulo64Bits
  intro a b x
  refine ⟨toNat_add64 a b, ?_⟩
  rw [toNat_add64, toNat_add64, Nat.mod_add_mod]

/-- ROTR64 is the right rotation of bit vectors. -/
theorem rotr64_eq_rotateRight (x : Word) {n : Nat} (h : n < 64) : rotr64 x n = x.rotateRight n :=
  (BitVec.rotateRight_eq_rotateRightAux_of_lt h).symm

/-- Settles O7, by the bits of a right rotation: those that stay above `n` move down, the low `n` come round to the top. -/
theorem rotationMovesEveryBit : Obligations.RotationMovesEveryBit := by
  unfold Obligations.RotationMovesEveryBit
  intro x n _ hn k hk
  rw [rotr64_eq_rotateRight x (by omega), BitVec.getLsbD_rotateRight, Nat.mod_eq_of_lt (show n < 64 by omega)]
  by_cases hlow : k < 64 - n
  · rw [decide_eq_true hlow, cond_true, Nat.mod_eq_of_lt (show k + n < 64 by omega), Nat.add_comm]
  · rw [decide_eq_false hlow, cond_false, decide_eq_true hk, Bool.true_and, show (k + n) % 64 = k - (64 - n) by omega]

/-- A half of G, in the addition and the right rotation of bit vectors. -/
theorem halfMix_eq {rd rb : Nat} (hd : rd < 64) (hb : rb < 64) (q : Column) (x : Word) :
    halfMix rd rb q x =
      let a := q.a + q.b + x
      let d := (q.d ^^^ a).rotateRight rd
      let c := q.c + d
      { a := a, b := (q.b ^^^ c).rotateRight rb, c := c, d := d } := by
  simp only [halfMix, rotr64_eq_rotateRight _ hd, rotr64_eq_rotateRight _ hb, add64, xor64]

/-- Settles O8: both lane functions are halves of G. -/
theorem laneFunctionsAddXorAndRotate : Obligations.LaneFunctionsAddXorAndRotate := by
  unfold Obligations.LaneFunctionsAddXorAndRotate
  exact fun a b c d x => ⟨halfMix_eq (by decide) (by decide) _ x, halfMix_eq (by decide) (by decide) _ x⟩

/-! ### The ROMs and the schedule (R146, R147, R149, R161) -/

/-- The row of round `I` is given by `I mod 10` alone. -/
theorem Rom.exists_sigmaRow_eq (i : BitVec 32) :
    ∃ row : Fin 10, i.toNat % 10 = row ∧ Rom.sigmaRow i = Rom.sigma[row] :=
  ⟨⟨i.toNat % 10, Nat.mod_lt _ (by decide)⟩, rfl, rfl⟩

theorem Rom.sigmaRow_congr {i j : BitVec 32} (h : i.toNat % 10 = j.toNat % 10) : Rom.sigmaRow i = Rom.sigmaRow j := by
  simp only [Rom.sigmaRow, h]

/-- Settles O20, row by row. -/
theorem romsHoldTheStandardTables : Obligations.RomsHoldTheStandardTables := by
  unfold Obligations.RomsHoldTheStandardTables
  refine ⟨rfl, fun round => ?_⟩
  obtain ⟨row, hmod, hrow⟩ := Rom.exists_sigmaRow_eq round
  rw [hmod, hrow]
  fin_cases row <;> rfl

/-- The position of the schedule row that a G-phase feeds to a lane, the G-phases in their order. -/
def schedulePosition (pos : Fin 4 × Fin 4) : Fin 16 :=
  (#v[Select.g1c, Select.g2c, Select.g1d, Select.g2d][pos.1])[pos.2]

/-- The G-phases and lanes of a round share out the 16 positions of its row. -/
theorem schedulePosition_bijective : Function.Bijective schedulePosition :=
  (Fintype.bijective_iff_injective_and_card _).2 ⟨by decide, rfl⟩

/-- A row of SIGMA is a permutation of the message words. -/
theorem sigma_bijective (row : Fin 10) : Function.Bijective fun k : Fin 16 => Rom.sigma[row][k] := by
  refine Finite.injective_iff_bijective.1 ?_
  revert row
  decide

/-- Settles O28: positions and message words correspond one to one, and rounds that are 10 apart have the same row. -/
theorem scheduleUsesEachWordOncePerRound : Obligations.ScheduleUsesEachWordOncePerRound := by
  unfold Obligations.ScheduleUsesEachWordOncePerRound
  refine fun i => ⟨fun w => ?_, fun hi => Rom.sigmaRow_congr ?_⟩
  · obtain ⟨row, -, hrow⟩ := Rom.exists_sigmaRow_eq i
    rw [hrow]
    exact ((sigma_bijective row).comp schedulePosition_bijective).existsUnique w
  · rw [BitVec.toNat_sub_of_le (by simpa [BitVec.le_def] using hi)]
    exact Nat.mod_eq_sub_mod hi

end Sys2Proof.Machine
end

section
/-! The phases of a round (42_mixer.md R148 to R159): INIT, the four G-phases, DIAG and UNDIAG, and the scalar form of the round. -/

namespace Sys2Proof.Machine

/-! ### INIT (R148) -/

/-- Settles O19, by INIT's value of V. -/
theorem initSetsTheWorkingVector : Obligations.InitSetsTheWorkingVector := by
  unfold Obligations.InitSetsTheWorkingVector
  intro s h t f rounds hh ht hf hrounds
  refine ⟨initValue h t f, execPhaseInit_eq hh ht hf hrounds, fun k => ?_, fun k => ?_, rfl, rfl, rfl, BitVec.xor_zero⟩
  · fin_cases k <;> rfl
  · fin_cases k <;> rfl

/-! ### The G-phases (R149, R151, R153, R155, R156) -/

theorem column_mk (v : Vector Word 16) {j : Nat} (hj : j < 4) :
    column v ⟨j, hj⟩ = { a := v[j], b := v[4 + j], c := v[8 + j], d := v[12 + j] } := by
  simp [column, lane]

/-- A G-phase mixes each column with the message word at the lane's position of the schedule row. -/
theorem mixColumns_messageWords (f : Column → Word → Column) (m : Vector Word 16) (i : BitVec 32) {pos : Vector (Fin 16) 4}
    (v : Vector Word 16) {j k : Nat} (hj : j < 4) (hk : k < 16) (hpos : pos[j] = ⟨k, hk⟩) :
    ({ a := (mixColumns f (messageWords m i pos) v)[j], b := (mixColumns f (messageWords m i pos) v)[4 + j],
       c := (mixColumns f (messageWords m i pos) v)[8 + j], d := (mixColumns f (messageWords m i pos) v)[12 + j] } : Column) =
      f { a := v[j], b := v[4 + j], c := v[8 + j], d := v[12 + j] } m[(Rom.sigmaRow i)[k]] := by
  rw [← column_mk _ hj, ← column_mk v hj, column_mixColumns, messageWords_getElem]
  simp [hpos]

theorem Select.g1c_getElem {j : Nat} (hj : j < 4) : Select.g1c[j] = ⟨2 * j, by omega⟩ := by
  interval_cases j <;> rfl

theorem Select.g2c_getElem {j : Nat} (hj : j < 4) : Select.g2c[j] = ⟨2 * j + 1, by omega⟩ := by
  interval_cases j <;> rfl

theorem Select.g1d_getElem {j : Nat} (hj : j < 4) : Select.g1d[j] = ⟨8 + 2 * j, by omega⟩ := by
  interval_cases j <;> rfl

theorem Select.g2d_getElem {j : Nat} (hj : j < 4) : Select.g2d[j] = ⟨9 + 2 * j, by omega⟩ := by
  interval_cases j <;> rfl

/-- Settles O21: both phases mix by columns, lane `j` at its position of the row. -/
theorem g1PhasesMixEveryColumn : Obligations.G1PhasesMixEveryColumn := by
  unfold Obligations.G1PhasesMixEveryColumn
  intro s v m i hv hm hi
  exact ⟨⟨g1cValue m i v, mixPhase_eq hv hm hi g1cValue Phase.g2c,
      fun _ hj => mixColumns_messageWords g1Lane m i v hj _ (Select.g1c_getElem hj)⟩,
    ⟨g1dValue m i v, mixPhase_eq hv hm hi g1dValue Phase.g2d,
      fun _ hj => mixColumns_messageWords g1Lane m i v hj _ (Select.g1d_getElem hj)⟩⟩

/-- Settles O22, as for the G1 phases. -/
theorem g2PhasesMixEveryColumn : Obligations.G2PhasesMixEveryColumn := by
  unfold Obligations.G2PhasesMixEveryColumn
  intro s v m i hv hm hi
  exact ⟨⟨g2cValue m i v, mixPhase_eq hv hm hi g2cValue Phase.diag,
      fun _ hj => mixColumns_messageWords g2Lane m i v hj _ (Select.g2c_getElem hj)⟩,
    ⟨g2dValue m i v, mixPhase_eq hv hm hi g2dValue Phase.undiag,
      fun _ hj => mixColumns_messageWords g2Lane m i v hj _ (Select.g2d_getElem hj)⟩⟩

/-! ### DIAG and UNDIAG (R154, R157) -/

/-- Settles O23, by DIAG's value of V. -/
theorem diagMovesTheLanes : Obligations.DiagMovesTheLanes := by
  unfold Obligations.DiagMovesTheLanes
  exact fun _ _ hv => execPhaseDiag_eq hv

/-- Settles O24: the next round's index does not wrap, because it is below ROUNDS. -/
theorem undiagMovesTheLanesBack : Obligations.UndiagMovesTheLanesBack := by
  unfold Obligations.UndiagMovesTheLanesBack
  intro s v i rounds hv hi hrounds
  have hexec := execPhaseUndiag_eq hv hi hrounds
  refine ⟨undiagValue v, rfl, fun hnext => ⟨i + 1, ?_, hexec.trans (if_pos hnext)⟩, fun hlast => hexec.trans (if_neg hlast)⟩
  rw [BitVec.toNat_add]
  exact Nat.mod_eq_of_lt (Nat.lt_trans hnext rounds.isLt)

theorem undiagValue_diagValue (v : Vector Word 16) : undiagValue (diagValue v) = v :=
  vector_ext_fin fun k => by fin_cases k <;> rfl

theorem diagValue_undiagValue (v : Vector Word 16) : diagValue (undiagValue v) = v :=
  vector_ext_fin fun k => by fin_cases k <;> rfl

/-- The rows turn by one, two and three lanes of four. -/
theorem diagValue_four (v : Vector Word 16) : diagValue (diagValue (diagValue (diagValue v))) = v :=
  vector_ext_fin fun k => by fin_cases k <;> rfl

/-- Settles O25, word by word. -/
theorem undiagUndoesDiag : Obligations.UndiagUndoesDiag := by
  unfold Obligations.UndiagUndoesDiag
  exact fun v => ⟨undiagValue_diagValue v, diagValue_undiagValue v, diagValue_four v⟩

/-! ### The places of V that DIAG moves (R154) -/

/-- The place of V from which DIAG takes each word. -/
def diagPlace (k : Fin 16) : Fin 16 :=
  (#v[0, 1, 2, 3, 5, 6, 7, 4, 10, 11, 8, 9, 15, 12, 13, 14] : Vector (Fin 16) 16)[k]

theorem diagPlace_injective : Function.Injective diagPlace := by decide

theorem diagValue_getElem (v : Vector Word 16) (k : Fin 16) : (diagValue v)[k] = v[diagPlace k] := by
  fin_cases k <;> rfl

/-- A word that is set where DIAG takes it from is set where DIAG puts it. -/
theorem diagValue_set (v : Vector Word 16) (k : Fin 16) (word : Word) :
    diagValue (v.set (diagPlace k) word) = (diagValue v).set k word := by
  refine vector_ext_fin fun l => ?_
  rw [diagValue_getElem, Fin.getElem_fin, Fin.getElem_fin, Vector.getElem_set, Vector.getElem_set]
  simp only [Fin.val_inj, diagPlace_injective.eq_iff, ← Fin.getElem_fin, diagValue_getElem]

/-! ### The scalar round (R159) -/

namespace Reference

/-- The whole G on column `j`, in place, with its two message words. -/
def scalarColumn (x y : Vector Word 4) (v : Vector Word 16) (j : Fin 4) : Vector Word 16 :=
  mixColumnAt (fun q w => g2Lane (g1Lane q w) y[j]) x v j

/-- G on one column mixes that column by G1lane and G2lane, and leaves the others. -/
theorem column_scalarColumn (x y : Vector Word 4) (v : Vector Word 16) (j k : Fin 4) :
    column (scalarColumn x y v j) k = if k = j then g2Lane (g1Lane (column v k) x[k]) y[k] else column v k := by
  split_ifs with h
  · subst h
    exact column_mixColumnAt_same _ x v k
  · exact column_mixColumnAt_ne _ x v h

/-- G on the four columns, one after the other, is the two half-mixes on all of them. -/
theorem foldl_scalarColumn (x y : Vector Word 4) (v : Vector Word 16) :
    [0, 1, 2, 3].foldl (scalarColumn x y) v = mixColumns g2Lane y (mixColumns g1Lane x v) :=
  vector_ext_columns fun j => by
    fin_cases j <;> simp [column_scalarColumn]

theorem scalarG_column (x y : Vector Word 4) (v : Vector Word 16) (j : Fin 4) :
    scalarG v ⟨j, by omega⟩ ⟨4 + j, by omega⟩ ⟨8 + j, by omega⟩ ⟨12 + j, by omega⟩ x[j] y[j] = scalarColumn x y v j := by
  fin_cases j <;> rfl

/-- The first four calls are G on the columns. -/
theorem scalarCall_column (m : Vector Word 16) (i : BitVec 32) (v : Vector Word 16) (j : Fin 4) :
    scalarCall m i v ⟨j, by omega⟩ = scalarColumn (messageWords m i Select.g1c) (messageWords m i Select.g2c) v j := by
  rw [← scalarG_column, messageWords_getElem, messageWords_getElem]
  fin_cases j <;> rfl

/-- G on places before DIAG is G on the places where DIAG puts them. -/
theorem diagValue_scalarG (v : Vector Word 16) (a b c d : Fin 16) (x y : Word) :
    diagValue (scalarG v (diagPlace a) (diagPlace b) (diagPlace c) (diagPlace d) x y) = scalarG (diagValue v) a b c d x y := by
  simp only [scalarG, diagValue_set, diagValue_getElem]

/-- The last four calls are G on the diagonals, which DIAG makes columns. -/
theorem diagValue_scalarCall (m : Vector Word 16) (i : BitVec 32) (v : Vector Word 16) (j : Fin 4) :
    diagValue (scalarCall m i v ⟨4 + j, by omega⟩) =
      scalarColumn (messageWords m i Select.g1d) (messageWords m i Select.g2d) (diagValue v) j := by
  rw [← scalarG_column, ← diagValue_scalarG, messageWords_getElem, messageWords_getElem]
  fin_cases j <;> rfl

/-- The first four calls together are the half-mixes of the columns. -/
theorem foldl_scalarCall_columns (m : Vector Word 16) (i : BitVec 32) (v : Vector Word 16) :
    [0, 1, 2, 3].foldl (scalarCall m i) v = g2cValue m i (g1cValue m i v) := by
  rw [g2cValue, g1cValue, ← foldl_scalarColumn]
  simp only [List.foldl_cons, List.foldl_nil, ← scalarCall_column]
  rfl

/-- The last four together, seen after DIAG, are the half-mixes of the diagonals. -/
theorem diagValue_foldl_scalarCall (m : Vector Word 16) (i : BitVec 32) (v : Vector Word 16) :
    diagValue ([4, 5, 6, 7].foldl (scalarCall m i) v) = g2dValue m i (g1dValue m i (diagValue v)) := by
  rw [g2dValue, g1dValue, ← foldl_scalarColumn]
  simp only [List.foldl_cons, List.foldl_nil, ← diagValue_scalarCall]
  rfl

end Reference

/-- Settles O27: the calls on the columns are the half-mixes before DIAG, those on the diagonals the half-mixes after it, and UNDIAG
undoes DIAG. -/
theorem roundEqualsTheScalarRound : Obligations.RoundEqualsTheScalarRound := by
  unfold Obligations.RoundEqualsTheScalarRound
  intro m i v
  rw [Reference.round, ← Reference.foldl_scalarCall_columns, ← Reference.diagValue_foldl_scalarCall, undiagValue_diagValue,
    ← List.foldl_append]
  rfl

end Sys2Proof.Machine
end

section
/-! The control flow does not depend on the data (42_mixer.md R163): two transactions of as many rounds, both admitted by CHK or both
rejected, show the same FSM, PHASE, I and STATUS after every number of steps. -/

namespace Sys2Proof.Machine

/-- FSM, PHASE, I and STATUS have the same values in both states. -/
structure State.SameControl (s t : State) : Prop where
  fsm : s.fsm = t.fsm
  phase : s.phase = t.phase
  i : s.i = t.i
  status : s.status = t.status

/-! ### Where a transaction stands -/

/-- CHK's verdict on a payload is its verdict on what DEC reads from the payload's bytes. -/
theorem admits_of_decoded {p q : Payload} (hq : decodePayload (encodePayload p) = some q) (strict : Bool) :
    admits strict q.f = admits strict p.f := by
  rw [decodePayload_encodePayload] at hq
  rw [Option.some.inj hq]

/-- A transaction in flight whose request CHK will reject is about to execute CHK. -/
theorem State.InFlight.of_rejected {s : State} {p : Payload} (h : s.InFlight (encodePayload p))
    (hrej : admits s.strict p.f = false) : s.phase = some Phase.chk ∧ s.i = none := by
  obtain ⟨-, -, -, ⟨hphase, -, hwork⟩ | ⟨q, hq, hadm, -⟩⟩ := h
  · exact ⟨hphase, hwork.2.1⟩
  · rw [admits_of_decoded hq, hrej] at hadm
    cases hadm

/-- The response to a rejected request leaves PHASE at CHK. -/
theorem State.Answered.of_rejected {s : State} {p : Payload} (h : s.Answered (encodePayload p))
    (hrej : admits s.strict p.f = false) :
    s.phase = some Phase.chk ∧ s.i = none ∧ s.status = some Status.invalidFinalFlag := by
  obtain ⟨-, ⟨-, hphase, -, hwork, -, hstatus⟩ | ⟨q, hq, hadm, -⟩⟩ := h
  · refine ⟨hphase, hwork.2.1, hstatus.trans ?_⟩
    rw [admits, Bool.not_eq_false'] at hrej
    simp [Reference.response, decodePayload_encodePayload, hrej]
  · rw [admits_of_decoded hq, hrej] at hadm
    cases hadm

theorem lastRound_congr {p q : Payload} (h : p.rounds = q.rounds) : lastRound p = lastRound q := by
  rw [lastRound, lastRound, h]

/-- A transaction's number of steps depends on ROUNDS and CHK's verdict alone. -/
theorem steps_congr {strict : Bool} {p q : Payload} (hrounds : p.rounds = q.rounds)
    (hadm : admits strict p.f = admits strict q.f) :
    Reference.steps strict (encodePayload p) = Reference.steps strict (encodePayload q) := by
  have hrej : (strict && rejectsFinalByte p.f) = (strict && rejectsFinalByte q.f) := Bool.not_inj hadm
  simp only [Reference.steps, decodePayload_encodePayload, hrej, hrounds]

/-- In flight, ROUNDS, CHK's verdict and the steps that remain settle where the transaction stands. -/
theorem State.InFlight.sameControl {s t : State} {p q : Payload} (hs : s.InFlight (encodePayload p))
    (ht : t.InFlight (encodePayload q)) (hsbusy : s.fsm = Fsm.busy) (htbusy : t.fsm = Fsm.busy) (hrounds : p.rounds = q.rounds)
    (hadm : admits s.strict p.f = admits t.strict q.f)
    (hrem : remaining (encodePayload p) s = remaining (encodePayload q) t) : s.SameControl t := by
  have hstatus : s.status = t.status := hs.2.2.1.trans ht.2.2.1.symm
  cases ha : admits s.strict p.f with
  | true =>
    obtain ⟨hsphase, hsi⟩ := hs.schedule (decodePayload_encodePayload p) ha
    obtain ⟨htphase, hti⟩ := ht.schedule (decodePayload_encodePayload q) (hadm ▸ ha)
    rw [hrounds, hrem] at hsphase hsi
    exact ⟨hsbusy.trans htbusy.symm, hsphase.trans htphase.symm, hsi.trans hti.symm, hstatus⟩
  | false =>
    obtain ⟨hsphase, hsi⟩ := hs.of_rejected ha
    obtain ⟨htphase, hti⟩ := ht.of_rejected (hadm ▸ ha)
    exact ⟨hsbusy.trans htbusy.symm, hsphase.trans htphase.symm, hsi.trans hti.symm, hstatus⟩

/-- In DONE, ROUNDS and CHK's verdict do. -/
theorem State.Answered.sameControl {s t : State} {p q : Payload} (hs : s.Answered (encodePayload p))
    (ht : t.Answered (encodePayload q)) (hsdone : s.fsm = Fsm.done) (htdone : t.fsm = Fsm.done) (hrounds : p.rounds = q.rounds)
    (hadm : admits s.strict p.f = admits t.strict q.f) : s.SameControl t := by
  cases ha : admits s.strict p.f with
  | true =>
    obtain ⟨-, hsphase, hsi⟩ := hs.ok_of_admitted ha
    obtain ⟨-, htphase, hti⟩ := ht.ok_of_admitted (hadm ▸ ha)
    exact ⟨hsdone.trans htdone.symm, hsphase.trans htphase.symm, (hsi.trans (lastRound_congr hrounds)).trans hti.symm,
      (hs.of_admitted ha).1.trans (ht.of_admitted (hadm ▸ ha)).1.symm⟩
  | false =>
    obtain ⟨hsphase, hsi, hsstatus⟩ := hs.of_rejected ha
    obtain ⟨htphase, hti, htstatus⟩ := ht.of_rejected (hadm ▸ ha)
    exact ⟨hsdone.trans htdone.symm, hsphase.trans htphase.symm, hsi.trans hti.symm, hsstatus.trans htstatus.symm⟩

/-! ### Every number of steps -/

/-- A block that is DONE with nothing further to do stays as it is. -/
theorem run_answered {t : State} {bytes : List Byte} (hdone : t.fsm = Fsm.done) (hans : t.Answered bytes) (hagenda : t.agenda = [])
    (k : Nat) : run k t = .next t := by
  have hstep : step t = .next t :=
    step_held (State.Inv.legal (.inr (.inr ⟨hdone, bytes, hans⟩))) (by simp [hdone]) (by simp [hagenda])
  induction k with
  | zero => rfl
  | succ k ih => rw [run_succ, hstep, andThen_next, ih]

/-- What a request that is submitted alone to a blank block has come to after its acceptance and `k` further steps. -/
theorem run_submit_alone {s : State} {bytes : List Byte} (hblank : s.endTransaction = s)
    (hagenda : s.agenda = [.command (.submit bytes)]) (k : Nat) :
    ∃ t, run (k + 1) s = .next t ∧ t.strict = s.strict ∧
      ((k < Reference.steps s.strict bytes ∧ t.fsm = Fsm.busy ∧ t.InFlight bytes ∧
          remaining bytes t = Reference.steps s.strict bytes - k) ∨
        (Reference.steps s.strict bytes ≤ k ∧ t.fsm = Fsm.done ∧ t.Answered bytes)) := by
  have hidle := (State.blank_of_endTransaction hblank).1
  obtain ⟨u, hacc, hbusy, hflight, hremaining, hustrict, huagenda, -⟩ :=
    accept_inFlight (State.blank_withAgents hblank [] s.delivered) bytes
  have hsubmit : step s = .next u := by
    rw [step_command (held := []) (State.Inv.legal (.inl ⟨hidle, hblank⟩)) hagenda (by simp) ((s.enables_submit bytes).2 hidle)]
    exact (execSubmit_idle (s := { s with agenda := [] }) hidle bytes).trans hacc
  obtain ⟨t, -, hdone, hans, htstrict, htagenda, -, hmachine⟩ := sequencerSteps_inFlight _ hbusy hflight hremaining
  obtain ⟨hend, hbefore⟩ := hmachine (by rw [huagenda]; rfl)
  rw [run_succ, hsubmit, andThen_next]
  rcases Nat.lt_or_ge k (Reference.steps s.strict bytes) with hk | hk
  · obtain ⟨w, hrun, hwbusy, hwflight, hwremaining, hwstrict⟩ := hbefore k hk
    exact ⟨w, hrun, hwstrict.trans hustrict, .inl ⟨hk, hwbusy, hwflight, hwremaining⟩⟩
  · obtain ⟨extra, rfl⟩ := Nat.exists_eq_add_of_le hk
    refine ⟨t, ?_, htstrict.trans hustrict, .inr ⟨hk, hdone, hans⟩⟩
    rw [run_add]
    exact (congrArg (andThen · (run extra)) hend).trans (run_answered hdone hans (htagenda.trans huagenda) extra)

/-- The block after reset in one of its modes, and a requester that submits one payload. -/
def submitted (strict : Bool) (p : Payload) : State :=
  { State.reset with strict := strict, agenda := [.command (.submit (encodePayload p))] }

/-- Settles O56: before acceptance the blocks differ in the request to come alone; from then on ROUNDS, CHK's verdict and the number of
steps settle where each transaction stands. -/
theorem controlFlowIgnoresTheData : Obligations.ControlFlowIgnoresTheData := by
  unfold Obligations.ControlFlowIgnoresTheData
  intro strict p q k hrounds hrejects
  suffices ∃ s t, run k (submitted strict p) = .next s ∧ run k (submitted strict q) = .next t ∧ s.SameControl t by
    obtain ⟨s, t, hs, ht, hcontrol⟩ := this
    exact ⟨s, t, hs, ht, hcontrol.fsm, hcontrol.phase, hcontrol.i, hcontrol.status⟩
  cases k with
  | zero => exact ⟨_, _, rfl, rfl, ⟨rfl, rfl, rfl, rfl⟩⟩
  | succ k =>
    have hadm : admits strict p.f = admits strict q.f := by
      cases strict with
      | false => rfl
      | true => rw [admits, admits, hrejects rfl]
    have hsteps := steps_congr hrounds hadm
    obtain ⟨s, hs, hsstrict, hscase⟩ := run_submit_alone (s := submitted strict p) rfl rfl k
    obtain ⟨t, ht, htstrict, htcase⟩ := run_submit_alone (s := submitted strict q) rfl rfl k
    have hverdict : admits s.strict p.f = admits t.strict q.f := by rw [hsstrict, htstrict]; exact hadm
    refine ⟨s, t, hs, ht, ?_⟩
    rcases hscase with ⟨hk, hsbusy, hsflight, hsrem⟩ | ⟨hk, hsdone, hsans⟩
    · rcases htcase with ⟨-, htbusy, htflight, htrem⟩ | ⟨hk', -⟩
      · exact hsflight.sameControl htflight hsbusy htbusy hrounds hverdict
          (hsrem.trans ((congrArg (· - k) hsteps).trans htrem.symm))
      · exact absurd (hsteps ▸ hk) (Nat.not_lt.2 hk')
    · rcases htcase with ⟨hk', -⟩ | ⟨-, htdone, htans⟩
      · exact absurd (hsteps ▸ hk') (Nat.not_lt.2 hk)
      · exact hsans.sameControl htans hsdone htdone hrounds hverdict

end Sys2Proof.Machine
end

section
/-! The serializer (43_serializer.md R180, R181, R184): the value of FIN, the bytes of SER, and the closed form at zero rounds. -/

namespace Sys2Proof.Machine

/-! ### FIN (R180) -/

/-- Settles O29, by FIN's value of HOUT. -/
theorem finXorsBothHalvesIntoH : Obligations.FinXorsBothHalvesIntoH := by
  unfold Obligations.FinXorsBothHalvesIntoH
  intro s h v hh hv
  exact ⟨finValue h v, execPhaseFin_eq hh hv, fun _ _ => Vector.getElem_ofFn _⟩

/-! ### SER (R181) -/

/-- Byte `8k + j` of the output is byte `j` of word `k`, the least significant byte first. -/
theorem serValue_getElem? (hout : Vector Word 8) {k j : Nat} (hk : k < 8) (hj : j < 8) :
    (serValue hout)[8 * k + j]? = some (hout[k].extractLsb' (8 * j) 8) := by
  have hword : slice (serValue hout) (8 * k) 8 = le64bytes hout[k] := by
    rw [serValue, ← List.append_nil (wordsBytes _), slice_wordsBytes _ [] k (by simpa using hk), Vector.getElem_toList]
  calc (serValue hout)[8 * k + j]?
      _ = (slice (serValue hout) (8 * k) 8)[j]? := by simp [slice, hj]
      _ = some (hout[k].extractLsb' (8 * j) 8) := by rw [hword]; simp [le64bytes, hj]

/-- Settles O30: SER's one write covers the 64 bytes of OUT and no offset beyond them. -/
theorem serWritesLittleEndianWords : Obligations.SerWritesLittleEndianWords := by
  unfold Obligations.SerWritesLittleEndianWords
  intro s hout hs
  refine ⟨_, execPhaseSer_eq hs, fun k j hk hj => ?_, fun x hx => ?_⟩
  · rw [Memory.read_writeAll, if_pos (by rw [serValue_length]; omega), Nat.sub_zero, serValue_getElem? hout hk hj]
  · rw [Memory.read_writeAll, if_neg (by rw [serValue_length]; omega)]

/-! ### Zero rounds (R184) -/

theorem mixed_of_rounds_zero {p : Payload} (h : p.rounds = 0) :
    Reference.mixed p = initValue p.h p.t (finalFlag p.f) := by
  rw [Reference.mixed, h]
  rfl

/-- FIN straight after INIT: the first half of V is H itself and cancels, so the second half alone is left. -/
theorem finValue_initValue (h : Vector Word 8) (t : Vector Word 2) (f : Bool) :
    finValue h (initValue h t f) =
      #v[Rom.iv[0], Rom.iv[1], Rom.iv[2], Rom.iv[3], Rom.iv[4] ^^^ t[0], Rom.iv[5] ^^^ t[1], Rom.iv[6] ^^^ f0 f, Rom.iv[7]] := by
  have hcancel (x y : Word) : xor64 (xor64 x x) y = y := by rw [xor64, xor64, BitVec.xor_self, BitVec.zero_xor]
  refine Vector.ext fun k hk => (Vector.getElem_ofFn hk).trans ?_
  interval_cases k <;> exact hcancel _ _

/-- The final-flag mask as a function of the payload's last byte. -/
theorem f0_finalFlag (b : Byte) : f0 (finalFlag b) = if b = 0 then 0 else 0xFFFFFFFFFFFFFFFF := by
  simp [f0, finalFlag_eq_decide]

/-- Settles O38: with no round between INIT and FIN, HOUT is FIN's value of INIT's V. -/
theorem zeroRoundsGiveTheClosedForm : Obligations.ZeroRoundsGiveTheClosedForm := by
  unfold Obligations.ZeroRoundsGiveTheClosedForm
  intro s p hblank hlax hrounds
  obtain ⟨t, ht, -, -, -, -, hhout, -⟩ := transact_admitted hblank (p := p) (hlax ▸ admits_lax p.f)
  refine ⟨t, ht, hhout.trans (congrArg some ?_)⟩
  rw [Reference.compress, mixed_of_rounds_zero hrounds, finValue_initValue, f0_finalFlag]

end Sys2Proof.Machine
end

section
/-! Stops, blocks that stay put, and several instances (60_exceptions.md R214, R216, R217). -/

namespace Sys2Proof.Machine

/-! ### Instances (R214) -/

theorem Instances.stepAt_getElem?_ne (sys : Instances) {j k : Nat} (h : j ≠ k) : (sys.stepAt j)[k]? = sys[k]? :=
  List.getElem?_modify_ne _ sys h

theorem Instances.stepAt_comm (sys : Instances) {j k : Nat} (h : j ≠ k) :
    (sys.stepAt j).stepAt k = (sys.stepAt k).stepAt j :=
  List.modify_modify_ne _ _ sys h

theorem Instances.stepAt_getElem?_of_next {sys : Instances} {k : Nat} {s t : State} (hs : sys[k]? = some s)
    (hstep : step s = .next t) : (sys.stepAt k)[k]? = some t := by
  simp [Instances.stepAt, hs, hstep]

/-- A step that faults or is refused leaves its instance as it was. -/
theorem Instances.stepAt_getElem?_of_stop {sys : Instances} {k : Nat} {s : State} (hs : sys[k]? = some s)
    (hstop : ∀ t, step s ≠ .next t) : (sys.stepAt k)[k]? = some s := by
  cases hstep : step s with
  | next t => exact absurd hstep (hstop t)
  | fault r => simp [Instances.stepAt, hs, hstep]
  | refused r => simp [Instances.stepAt, hs, hstep]

/-- Settles O57: a list changed at one index is as it was at every other, changes at two indices commute, and the stepping instance has
the outcome of its own step. -/
theorem instancesAreIndependent : Obligations.InstancesAreIndependent := by
  unfold Obligations.InstancesAreIndependent
  intro sys j k hne
  refine ⟨sys.stepAt_getElem?_ne hne, sys.stepAt_comm hne, fun s hs => ⟨fun t hstep => ?_, fun r hstep => ?_, fun r hstep => ?_⟩⟩
  · exact Instances.stepAt_getElem?_of_next hs hstep
  · exact Instances.stepAt_getElem?_of_stop hs (by simp [hstep])
  · exact Instances.stepAt_getElem?_of_stop hs (by simp [hstep])

/-! ### A block that is not BUSY (R216) -/

/-- Settles O43: neither IDLE nor DONE is BUSY, so the step is that of held turns, with or without a pass behind them. -/
theorem blockThatIsNotBusyStaysPut : Obligations.BlockThatIsNotBusyStaysPut := by
  unfold Obligations.BlockThatIsNotBusyStaysPut
  intro s hfsm hlegal
  have hbusy : s.fsm ≠ Fsm.busy := by
    obtain hidle | hdone := hfsm
    · simp [hidle]
    · simp [hdone]
  exact ⟨step_held hlegal hbusy, fun _ _ => step_held_pass hlegal hbusy⟩

/-! ### The value 3 of FSM and STATUS (R217) -/

theorem readFsm_reserved {s : State} (h : s.fsm = Fsm.reserved) (k : BitVec 2 → Out) : readFsm s k = .fault .reservedFsm :=
  if_pos h

theorem readStatus_reserved {s : State} (h : s.status = some Status.reserved) (k : BitVec 2 → Out) :
    readStatus s k = .fault .reservedStatus := by
  rw [readStatus, h, readReg_some, if_pos rfl]

theorem State.reservedValue_of_fsm {s : State} (h : s.fsm = Fsm.reserved) : s.reservedValue = some .reservedFsm :=
  if_pos h

theorem State.reservedValue_of_status {s : State} (hf : s.fsm ≠ Fsm.reserved) (hs : s.status = some Status.reserved) :
    s.reservedValue = some .reservedStatus := by
  rw [State.reservedValue, if_neg hf, if_pos hs]

theorem transact_of_fsm_reserved {s : State} (h : s.fsm = Fsm.reserved) (bytes : List Byte) :
    transact bytes s = .fault .reservedFsm := by
  rw [transact, readFsm_reserved h]

theorem execSubmit_of_fsm_reserved {s : State} (h : s.fsm = Fsm.reserved) (bytes : List Byte) :
    execSubmit bytes s = .fault .reservedFsm := by
  rw [execSubmit, readFsm_reserved h]

theorem execConsume_of_fsm_reserved {s : State} (h : s.fsm = Fsm.reserved) : execConsume s = .fault .reservedFsm := by
  rw [execConsume, readFsm_reserved h]

theorem execConsume_of_status_reserved {s : State} (hd : s.fsm = Fsm.done) (h : s.status = some Status.reserved) :
    execConsume s = .fault .reservedStatus := by
  rw [execConsume, readFsm_done hd, if_pos rfl, response, readStatus_reserved h]

/-- Settles O44: the step tests both registers before anything else, the six request rows are transactions, and these, SUBMIT and CONSUME
begin with the read of FSM. -/
theorem reservedFsmOrStatusStops : Obligations.ReservedFsmOrStatusStops := by
  unfold Obligations.ReservedFsmOrStatusStops
  intro s p bytes h m t last rounds
  refine ⟨fun hfsm => ⟨step_of_reserved (State.reservedValue_of_fsm hfsm), fun i hi => ?_⟩,
    fun hfsm hstatus => step_of_reserved (State.reservedValue_of_status hfsm hstatus), execConsume_of_status_reserved⟩
  have hrow := transact_of_fsm_reserved hfsm
  fin_cases hi
  exacts [hrow _, hrow _, hrow _, hrow _, execSubmit_of_fsm_reserved hfsm bytes, execConsume_of_fsm_reserved hfsm, hrow _, hrow _]

end Sys2Proof.Machine
end

section
/-! RESET, the static flag, and the stops that no served request reaches (70_reset_and_hazards.md R240, R241, R243, R246). -/

namespace Sys2Proof.Machine

/-! ### STRICT_FINAL_FLAG (R243) -/

theorem setStrictFinalFlag_refused {s : State} {value : Bool} (hfsm : s.fsm ≠ Fsm.idle) (hvalue : s.strict ≠ value) :
    setStrictFinalFlag value s = .refused .strictFlagChangedInFlight :=
  if_pos ⟨hvalue, hfsm⟩

/-- Where the flag keeps its value, or the block is IDLE, the turn is not refused. -/
theorem setStrictFinalFlag_allowed {s : State} {value : Bool} (h : s.strict = value ∨ s.fsm = Fsm.idle) :
    setStrictFinalFlag value s = .next { s with strict := value } :=
  if_neg fun ⟨hvalue, hfsm⟩ => h.elim hvalue hfsm

/-- Settles O13: the turn behind the held commands is taken, and it is refused or sets the flag. -/
theorem strictFlagChangesOnlyWhenIdle : Obligations.StrictFlagChangesOnlyWhenIdle := by
  unfold Obligations.StrictFlagChangesOnlyWhenIdle
  intro s value held rest hagenda hheld hlegal
  rw [step_setStrictFinalFlag hlegal hagenda hheld]
  exact ⟨fun hfsm hvalue => setStrictFinalFlag_refused hfsm hvalue, fun hidle => setStrictFinalFlag_allowed (.inr hidle)⟩

/-! ### RESET (R240, R241) -/

/-- Settles O11: RESET reads no register, and the end of a transaction writes out every field. -/
theorem resetEndsAnyTransaction : Obligations.ResetEndsAnyTransaction := by
  unfold Obligations.ResetEndsAnyTransaction
  exact fun s => rfl

/-- As a turn, RESET ends the transaction with nothing delivered, whatever the block is doing. -/
theorem step_reset {s : State} {rest : List Turn} (hlegal : s.Legal) (hagenda : s.agenda = .command .reset :: rest) :
    step s = .next { s.endTransaction with agenda := rest } :=
  step_command (held := []) hlegal hagenda (by simp) s.enables_reset

/-- Settles O45: RESET leaves a blank block, which serves the next request with its CONSUME. -/
theorem resetAbandonsTheTransaction : Obligations.ResetAbandonsTheTransaction := by
  unfold Obligations.ResetAbandonsTheTransaction
  intro s bytes rest h hagenda
  rw [Nat.add_comm]
  refine (run_succ _ s).trans ?_
  rw [step_reset h.legal hagenda, andThen_next]
  exact run_submit_consume [] rfl rfl

/-! ### No fault is reached (R246) -/

/-- The phase of a transaction in flight has a next state, with another PHASE or FSM. -/
theorem runPhase_progress {s : State} {code : BitVec 4} (h : s.Inv) (hbusy : s.fsm = Fsm.busy) (hphase : s.phase = some code) :
    ∃ t, runPhase code s = .next t ∧ (t.phase, t.fsm) ≠ (s.phase, s.fsm) := by
  obtain ⟨bytes, hflight⟩ := h.inFlight hbusy
  obtain ⟨t, hrun, -⟩ := inFlight_step hbusy hflight hphase
  refine ⟨t, hrun, fun heq => ?_⟩
  obtain ⟨hsame, hfsm⟩ := Prod.mk.inj heq
  obtain hdone | ⟨-, next, hnext, hne⟩ := runPhase_advances hrun
  · simp [hdone, hbusy] at hfsm
  · exact hne (Option.some.inj (hnext.symm.trans (hsame.trans hphase)))

/-- A command has a next state in every state of the invariant, enabled or not. -/
theorem handshake_next {s : State} (h : s.Inv) (c : Handshake) : ∃ t, exec (decodeHandshake c) s = .next t := by
  cases c with
  | submit bytes =>
    obtain ⟨hidle, -⟩ | ⟨hbusy, -⟩ | ⟨hdone, -⟩ := h
    · exact ⟨_, (execSubmit_idle hidle bytes).trans (accept_eq bytes s)⟩
    · exact ⟨s, execSubmit_held (.inl hbusy) bytes⟩
    · exact ⟨s, execSubmit_held (.inr hdone) bytes⟩
  | consume =>
    obtain ⟨hidle, -⟩ | ⟨hbusy, -⟩ | ⟨hdone, bytes, hans⟩ := h
    · exact ⟨s, execConsume_held (.inl hidle)⟩
    · exact ⟨s, execConsume_held (.inr hbusy)⟩
    · exact ⟨_, execConsume_answered hdone hans⟩
  | reset => exact ⟨s.endTransaction, rfl⟩

/-- A BUSY block whose requester holds or passes takes its phase's step, and that changes PHASE or FSM. -/
theorem step_busy_progress {s : State} {rest : List Turn} (h : s.Inv) (hbusy : s.fsm = Fsm.busy)
    (hturn : (holding s.agenda = true ∧ rest = s.agenda) ∨ s.agenda = .pass :: rest) :
    ∃ code t, s.phase = some code ∧ step s = .next t ∧ exec (decodePhase code) { s with agenda := rest } = .next t ∧
      (t.phase, t.fsm) ≠ (s.phase, s.fsm) := by
  obtain ⟨code, hphase⟩ := h.phase_of_busy hbusy
  have ⟨_, hstatus, _⟩ := h.legal
  obtain ⟨t, hrun, hne⟩ := runPhase_progress (h.withAgenda rest) hbusy hphase
  have hstep : step s = runPhase code { s with agenda := rest } := by
    obtain ⟨hhold, rfl⟩ | hpass := hturn
    · exact step_busy hbusy hstatus hphase hhold
    · exact step_busy_pass hbusy hstatus hphase hpass
  exact ⟨code, t, hphase, hstep.trans hrun, (runPhase_eq_exec code _).symm.trans hrun, hne⟩

/-- A pass has a next state: a BUSY block takes its phase's step, another uses up the turn. -/
theorem step_pass_next {s : State} {held rest : List Turn} (h : s.Inv) (hagenda : s.agenda = held ++ .pass :: rest)
    (hheld : ∀ turn ∈ held, s.heldTurn turn = true) : ∃ t, step s = .next t := by
  by_cases hbusy : s.fsm = Fsm.busy
  · obtain rfl := eq_nil_of_heldTurn_busy hbusy hheld
    obtain ⟨-, t, -, hstep, -⟩ := step_busy_progress h hbusy (.inr hagenda)
    exact ⟨t, hstep⟩
  · exact ⟨_, step_held_pass h.legal hbusy hagenda hheld⟩

/-- A turn of the environment sets the flag, or is a change that is refused because the block is not IDLE. -/
theorem step_setStrictFinalFlag_cases {s : State} {value : Bool} {held rest : List Turn} (hlegal : s.Legal)
    (hagenda : s.agenda = held ++ .setStrictFinalFlag value :: rest) (hheld : ∀ turn ∈ held, s.heldTurn turn = true) :
    (∃ t, step s = .next t) ∨
      (step s = .refused .strictFlagChangedInFlight ∧ s.fsm ≠ Fsm.idle ∧ value = !s.strict) := by
  rw [step_setStrictFinalFlag hlegal hagenda hheld]
  by_cases hallowed : s.strict = value ∨ s.fsm = Fsm.idle
  · exact .inl ⟨_, setStrictFinalFlag_allowed hallowed⟩
  · obtain ⟨hvalue, hfsm⟩ := not_or.1 hallowed
    exact .inr ⟨setStrictFinalFlag_refused hfsm hvalue, hfsm, Bool.eq_not_of_ne (Ne.symm hvalue)⟩

/-- Settles O51, by the turn that is taken next: none, and the block takes its own step or stays; or a pass, a turn of the environment,
which alone can be refused, or a command. -/
theorem noReachableStateFaults : Obligations.NoReachableStateFaults := by
  unfold Obligations.NoReachableStateFaults
  refine fun s h => ⟨?_, fun hbusy _ => step_busy_progress h hbusy⟩
  have hlegal := h.legal
  have ⟨hreserved, _⟩ := hlegal
  obtain ⟨-, ⟨hbusy, hhold⟩ | ⟨hbusy, hheld⟩⟩ | ⟨held, turn, rest, hagenda, hheld, -, henabled⟩ :=
    s.nextTurn_cases hreserved s.agenda
  · obtain ⟨-, t, -, hstep, -⟩ := step_busy_progress h hbusy (.inl ⟨hhold, rfl⟩)
    exact .inl ⟨t, hstep⟩
  · exact .inl ⟨s, step_held hlegal hbusy hheld⟩
  · cases turn with
    | pass => exact .inl (step_pass_next h hagenda hheld)
    | setStrictFinalFlag value =>
      obtain hnext | ⟨hrefused, hfsm, rfl⟩ := step_setStrictFinalFlag_cases hlegal hagenda hheld
      · exact .inl hnext
      · exact .inr ⟨hrefused, hfsm, held, rest, hagenda, hheld⟩
    | command c =>
      rw [step_command hlegal hagenda hheld (henabled c rfl)]
      exact .inl (handshake_next (h.withAgenda _) c)

end Sys2Proof.Machine
end
